-- ==== Sys2Proof/Config.lean ====
section
/-! DEFINITION. Config: the parameters the spec gives the hardware (spec/00_scope.md R5, R6) and the values the
core takes for them. The spec leaves no value free, so there is no free value here. -/

namespace Sys2Proof

/-- The hardware's two parameters. `xlen = none` is the spec's unbounded reading of a cell (R5: "A model may also
take cells as unbounded natural numbers"), and `memcap = none` is no limit on the length of an image. -/
structure Params where
  /-- XLEN, the width of a cell in bits (R5). -/
  xlen : Option Nat
  /-- MEMCAP, the number of cells the array can physically hold (R6). -/
  memcap : Option Nat
  deriving DecidableEq, Repr

/-- The ranges R5 and R6 give the parameters: XLEN is positive and `MEMCAP ≤ 2^XLEN − 4`. With unbounded cells any
MEMCAP will do; a bounded cell needs a bounded memory. -/
def Params.valid (p : Params) : Bool :=
  match p.xlen, p.memcap with
  | none, _ => true
  | some n, some c => decide (0 < n ∧ c + 4 ≤ 2 ^ n)
  | some _, none => false

/-- XLEN of the core: the default of R5. DESIGN CHOICE, notes/assumptions/1.md. -/
abbrev Config.xlen : Nat := 64

/-- MEMCAP of the core: the default of R6. DESIGN CHOICE, notes/assumptions/2.md. -/
abbrev Config.memcap : Nat := 2 ^ Config.xlen - 4

/-- The parameters of the core: the defaults of R5 and R6. -/
def Config.core : Params := { xlen := some Config.xlen, memcap := some Config.memcap }

/-- The parameters of a machine with cells of `n` bits and the default MEMCAP for that width (R6). -/
def Config.ofXlen (n : Nat) : Params := { xlen := some n, memcap := some (2 ^ n - 4) }

/-- Unbounded cells: the source's own reading (R5). -/
def Config.unbounded : Params := { xlen := none, memcap := none }

end Sys2Proof
end

