-- ==== Sys2Proof/Word.lean ====
section
/-! DEFINITION. Word: the values of a cell. A cell, an XLEN-bit register and an address hold an unsigned integer. The
spec never selects or shifts a bit (R10) and states every rule over mathematical integers (R9), so such a value is a
natural number, and the bound `2^XLEN` is the explicit check below. DESIGN CHOICE, notes/assumptions/3.md. -/

namespace Sys2Proof

/-- `v` is a value a cell can hold: `0 ≤ v < 2^XLEN` (R5). -/
def Params.fits (p : Params) (v : Nat) : Bool :=
  match p.xlen with
  | none => true
  | some n => decide (v < 2 ^ n)

/-- A memory of `n` cells can be held: `n ≤ MEMCAP` (R6). -/
def Params.holds (p : Params) (n : Nat) : Bool :=
  match p.memcap with
  | none => true
  | some c => decide (n ≤ c)

end Sys2Proof
end

