-- ==== Sys2Proof/Syntax.lean ====
section
/-! DEFINITION. Syntax: the instructions of the CORE ISA, one constructor per row of spec/opcode_table.json, and the
lines of the spec's assembler. -/

namespace Sys2Proof

/-- An instruction with its operand cells (spec/30_encoding.md R60 to R62, R67). Each operand is the whole value of
one cell, an absolute cell address (R65). -/
inductive Instr where
  /-- ADD, format Q: `MEM[dst] <- MEM[a] + MEM[b]` (R101). -/
  | add (aAddr bAddr dstAddr : Nat)
  /-- MULTIPLY, format Q: `MEM[dst] <- MEM[a] * MEM[b]` (R102). -/
  | multiply (aAddr bAddr dstAddr : Nat)
  /-- STOP, format Z: halt with result `MEM[0]` (R120). -/
  | stop
  deriving DecidableEq, Repr

/-- What `Decode` maps an opcode cell to: the closed set of R63. -/
inductive Opcode where
  /-- Opcode cell value 1. -/
  | add
  /-- Opcode cell value 2. -/
  | multiply
  /-- Opcode cell value 99. -/
  | stop
  deriving DecidableEq, Repr

/-- The length of an instruction in cells (R64). -/
def Instr.length : Instr → Nat
  | .add _ _ _ => 4
  | .multiply _ _ _ => 4
  | .stop => 1

/-- A line of the spec's assembler (R69): an instruction, or `.cell v`. -/
inductive Line where
  /-- `ADD a, b, d`, `MULTIPLY a, b, d` or `STOP`. -/
  | instr (i : Instr)
  /-- `.cell v`. -/
  | cell (v : Nat)
  deriving DecidableEq, Repr

end Sys2Proof
end

