-- ==== Sys2Proof/WellFormed.lean ====
section
/-! DEFINITION. WellFormed: which terms of the syntax an XLEN-bit machine can store. -/

namespace Sys2Proof

/-- Every operand cell of `i` holds a value a cell can hold (spec/30_encoding.md R65: "Any cell value is a
well-formed operand field"; the range of a cell is R5). -/
def Instr.wellFormedAt (p : Params) : Instr → Bool
  | .add a b d => p.fits a && p.fits b && p.fits d
  | .multiply a b d => p.fits a && p.fits b && p.fits d
  | .stop => true

/-- Well-formed for the core's XLEN. -/
def Instr.wellFormed (i : Instr) : Bool := i.wellFormedAt Config.core

/-- A line of the assembler whose every value fits a cell (R69: "unsigned decimal integers below 2^XLEN"). -/
def Line.wellFormedAt (p : Params) : Line → Bool
  | .instr i => i.wellFormedAt p
  | .cell v => p.fits v

end Sys2Proof
end

