-- ==== Sys2Proof/Decode.lean ====
section
/-! DEFINITION. Decode: cells to instructions (spec/30_encoding.md R60 to R68), and after it the encoder from the
same tables. -/

namespace Sys2Proof

/-- `Decode(v)` of R63, on the whole value of the opcode cell; `none` stands for `raise UnknownOpcode(v)`. -/
def decodeOpcode (v : Nat) : Option Opcode :=
  if v = 1 then some .add
  else if v = 2 then some .multiply
  else if v = 99 then some .stop
  else none

/-- The three operand cells of format Q, read in the order of R100: cells 1, 2 and 3 after the opcode (R61). -/
def readOperands {ε : Type} (read : Nat → Except ε Nat) (mk : Nat → Nat → Nat → Instr) : Except ε Instr := do
  let a ← read 1
  let b ← read 2
  let d ← read 3
  return mk a b d

/-- The one decoder. `read k` gives the cell `k` places after the opcode cell or says why it is not there; `unknown`
names the rejection of an opcode value (R66). The opcode is decoded before any operand cell is read (R84), and STOP
reads none (R62). -/
def decodeFrom {ε : Type} (read : Nat → Except ε Nat) (unknown : Nat → ε) : Except ε Instr := do
  let v ← read 0
  match decodeOpcode v with
  | some .add => readOperands read .add
  | some .multiply => readOperands read .multiply
  | some .stop => return .stop
  | none => .error (unknown v)

/-- Why a list of cells holds no instruction. -/
inductive DecodeError where
  /-- The opcode cell holds a value other than 1, 2 and 99 (R66). -/
  | unknownOpcode (v : Nat)
  /-- The list ends before cell `k` of the instruction. -/
  | missingCell (k : Nat)
  deriving DecidableEq, Repr

/-- Cell `k` of a list of cells. -/
def cellOf (cells : List Nat) (k : Nat) : Except DecodeError Nat :=
  match cells[k]? with
  | some v => .ok v
  | none => .error (.missingCell k)

/-- The instruction that starts a list of cells, opcode cell first (R60). Total on every list. -/
def decode (cells : List Nat) : Except DecodeError Instr :=
  decodeFrom (cellOf cells) .unknownOpcode

/-- The number of cells of the longest instruction (R64). -/
def longestLength : Nat := 4

/-- The lowest `k` cells of `n` bits of the number `w`, lowest first: bit 0 of `w` is bit 0 of the first cell. -/
def cellsOfBits (n : Nat) : Nat → Nat → List Nat
  | 0, _ => []
  | k + 1, w => w % 2 ^ n :: cellsOfBits n k (w / 2 ^ n)

/-- The cells of an instruction given as the table gives it: `nbits` bits of `w`, every higher bit 0. -/
def tableCells (nbits w : Nat) : List Nat := cellsOfBits Config.xlen longestLength (w % 2 ^ nbits)

/-- The instruction the decoder reads from `nbits` bits of `w`, as spec/opcode_table.json numbers them. -/
def decodeTableWord (nbits w : Nat) : Option Instr :=
  match decode (tableCells nbits w) with
  | .ok i => some i
  | .error _ => none

/-- The value of the opcode cell (R67). -/
def Opcode.value : Opcode → Nat
  | .add => 1
  | .multiply => 2
  | .stop => 99

/-- The cells of an instruction, opcode cell first (R61, R62). -/
def encode : Instr → List Nat
  | .add a b d => [Opcode.add.value, a, b, d]
  | .multiply a b d => [Opcode.multiply.value, a, b, d]
  | .stop => [Opcode.stop.value]

/-- Cells of `n` bits packed into one number, the first cell lowest. -/
def packCells (n : Nat) : List Nat → Nat
  | [] => 0
  | c :: cs => c + 2 ^ n * packCells n cs

/-- The instruction as one number, numbered as spec/opcode_table.json numbers bits. -/
def tableWord (i : Instr) : Nat := packCells Config.xlen (encode i)

/-- How many bits the instruction has. -/
def tableBits (i : Instr) : Nat := Config.xlen * i.length

/-- The cells a line of the assembler emits (R69). -/
def Line.cells : Line → List Nat
  | .instr i => encode i
  | .cell v => [v]

/-- The image of a listing: lines "emitted in order at ascending addresses starting from 0" (R69). -/
def assemble (lines : List Line) : List Nat := lines.flatMap Line.cells

end Sys2Proof
end

