-- ==== Sys2Proof/Machine/State.lean ====
section
/-! DEFINITION. State: the seven elements of spec/10_state.md R20 as plain data, the reasons a step or a launch can
stop, and the state after reset. -/

namespace Sys2Proof.Machine

/-- The cells of a run as (address, value) pairs in one canonical form (`Memory.wf`): addresses strictly rising and
no listed value 0; a cell below LEN that is not listed holds 0. The cell is the smallest unit (R45), so there is no
byte view. DESIGN CHOICE, notes/assumptions/4.md and 5.md. -/
abbrev Memory := List (Nat × Nat)

/-- STATUS (R26). -/
inductive Status where
  /-- Code 0: the only state in which the machine steps. -/
  | running
  /-- Code 1: ended by STOP. -/
  | halted
  /-- Code 2: ended by a failure. -/
  | failed
  deriving DecidableEq, Repr

/-- CAUSE (R27). -/
inductive Cause where
  /-- Code 0: no failure has happened. -/
  | none
  /-- Code 1. -/
  | outOfBounds
  /-- Code 2. -/
  | unknownOpcode
  /-- Code 3. -/
  | arithmeticOverflow
  deriving DecidableEq, Repr

/-- The failures of spec/60_exceptions.md R130 with the value each carries. They end a run in Failed (R135): a next
state of the model, not an `Outcome.fault`. -/
inductive Failure where
  /-- R131: an access at an address `a ≥ LEN`. -/
  | outOfBounds (addr : Nat)
  /-- R132: the opcode cell held a value that is no opcode. -/
  | unknownOpcode (value : Nat)
  /-- R133: a sum or product too large for a cell, at this PC. -/
  | arithmeticOverflow (pc : Nat)
  deriving DecidableEq, Repr

/-- The architectural state: "A model's state type has these seven fields and nothing else" (R20). -/
structure State where
  /-- MEM (R24). -/
  mem : Memory
  /-- LEN, the number of cells of this run (R25). -/
  len : Nat
  /-- PC, XLEN bits, the address of the next opcode to decode (R22). -/
  pc : Nat
  /-- STATUS, 2 bits (R26). -/
  status : Status
  /-- CAUSE, 2 bits (R27). -/
  cause : Cause
  /-- INFO, XLEN bits, the value the failure carries (R28). -/
  info : Nat
  /-- RESULT, XLEN bits, the value of cell 0 at STOP (R29). -/
  result : Nat
  deriving DecidableEq, Repr

/-- Why a step stops without a next state. There is no constructor: every state has a next state, because a failure
of the hardware is entered as the state Failed (R135), a step in Halted or Failed leaves the state unchanged (R80),
and "Nothing in the hardware is `any value` or `stuck`" (spec/93_implementation_defined.md section 1). -/
inductive Fault where
  deriving DecidableEq, Repr

/-- Why an instruction or a host operation is given no meaning. -/
inductive Refusal where
  /-- Raised only by an arm of `exec` that rejects its instruction by name; no arm does. Safe. -/
  | notModelled (mnemonic : String)
  /-- Raised by `launch` for an image that is not admissible: "refused: no launch happens, no state changes"
  (R151). Safe. -/
  | inadmissibleImage
  deriving DecidableEq, Repr

/-- The machine right after reset. Launch is the only reset (R34) and takes an image; this is the launch of the
empty image, the one image that invents no cell. DESIGN CHOICE, notes/assumptions/6.md. -/
def State.reset : State where
  mem := []
  len := 0
  pc := 0
  status := .running
  cause := .none
  info := 0
  result := 0

end Sys2Proof.Machine
end

