-- ==== Sys2Proof/Machine/Ops.lean ====
section
/-! DEFINITION. Ops: the operations every meaning is written in: the cells of memory, the two checked primitives of
spec/20_memory.md, taking a failure and halting. -/

namespace Sys2Proof.Machine

/-- The value of cell `a`: the listed value, 0 where none is listed. -/
def Memory.read (m : Memory) (a : Nat) : Nat :=
  match m with
  | [] => 0
  | (b, v) :: rest => if b = a then v else Memory.read rest a

/-- Insert a pair into a list that does not list its address, keeping addresses rising. -/
def Memory.insert (m : Memory) (a : Nat) (v : Nat) : Memory :=
  match m with
  | [] => [(a, v)]
  | (b, w) :: rest => if a < b then (a, v) :: (b, w) :: rest else (b, w) :: Memory.insert rest a v

/-- The list without address `a`. -/
def Memory.erase (m : Memory) (a : Nat) : Memory := m.filter fun c => c.1 != a

/-- Set cell `a` to `v`. Writing 0 removes the entry, which keeps the form canonical. -/
def Memory.write (m : Memory) (a : Nat) (v : Nat) : Memory :=
  if v = 0 then Memory.erase m a else Memory.insert (Memory.erase m a) a v

/-- The canonical form: addresses strictly rising, and no listed value 0. -/
abbrev Memory.wf (m : Memory) : Prop := (m.map Prod.fst).Pairwise (· < ·) ∧ ∀ c ∈ m, c.2 ≠ 0

/-- The memory whose cells from address `a` on are those of an image. -/
def Memory.ofImageFrom (a : Nat) : List Nat → Memory
  | [] => []
  | v :: vs => if v = 0 then Memory.ofImageFrom (a + 1) vs else (a, v) :: Memory.ofImageFrom (a + 1) vs

/-- The memory of an image: `MEM[i] = img[i]` (R34). -/
def Memory.ofImage (img : List Nat) : Memory := Memory.ofImageFrom 0 img

/-- `MEM[a]` (R11). Meaningful for `a < LEN` only; every access of the machine goes through `memRead`. -/
def State.cell (s : State) (a : Nat) : Nat := s.mem.read a

/-- `MemRead(a, 1)` of R41: bounds-checked, without side effect. -/
def memRead (s : State) (a : Nat) : Except Failure Nat :=
  if s.len ≤ a then .error (.outOfBounds a) else .ok (s.cell a)

/-- `MEM[a] <- v`: the update of one cell, with no check. Only `memWrite` and the placing of a program use it. -/
def State.setCell (s : State) (a : Nat) (v : Nat) : State := { s with mem := s.mem.write a v }

/-- `MemWrite(a, 1, v)` of R42: bounds-checked; the caller guarantees `v < 2^XLEN`. -/
def memWrite (s : State) (a : Nat) (v : Nat) : Except Failure State :=
  if s.len ≤ a then .error (.outOfBounds a) else .ok (s.setCell a v)

/-- The CAUSE of a failure (R130). -/
def Failure.cause : Failure → Cause
  | .outOfBounds _ => .outOfBounds
  | .unknownOpcode _ => .unknownOpcode
  | .arithmeticOverflow _ => .arithmeticOverflow

/-- The INFO of a failure (R130): the offending address, the offending opcode value, or the PC. -/
def Failure.info : Failure → Nat
  | .outOfBounds a => a
  | .unknownOpcode v => v
  | .arithmeticOverflow pc => pc

/-- `raise E(info)` of R135, the one entry into Failed: CAUSE, INFO and STATUS are written and nothing else. There is
no return from a failure (R137): the only way out is a launch. -/
def raise (e : Failure) (s : State) : State :=
  { s with cause := e.cause, info := e.info, status := .failed }

/-- `halt(v)` of R120: RESULT and STATUS are written and nothing else. -/
def halt (v : Nat) (s : State) : State := { s with result := v, status := .halted }

/-- `PC <- PC + 4`, the one update of PC by a step (R22). -/
def advance (s : State) : State := { s with pc := s.pc + 4 }

/-- How the step that started in `s` ends: in the state its lines reached, or in Failed, entered from `s`. Entering
from `s` drops what the failing step did, which is nothing (R86, R87). -/
def settle (s : State) : Except Failure State → Host.Outcome State Fault Refusal
  | .ok t => .next t
  | .error e => .next (raise e s)

/-- The code of STATUS (R26). -/
def Status.code : Status → BitVec 2
  | .running => 0
  | .halted => 1
  | .failed => 2

/-- The code of CAUSE (R27). -/
def Cause.code : Cause → BitVec 2
  | .none => 0
  | .outOfBounds => 1
  | .unknownOpcode => 2
  | .arithmeticOverflow => 3

end Sys2Proof.Machine
end

