-- ==== Sys2Proof/Machine/Flags.lean ====
section
/-! DEFINITION. Flags: the hardware has none (spec/10_state.md R30). "An arithmetic result too large for a cell is not
flagged; it is a failure": that check is here. -/

namespace Sys2Proof.Machine

/-- The range check of R100 and R103 on the exact result `r` of the instruction at `pc`. -/
def checkRange (p : Params) (pc : Nat) (r : Nat) : Except Failure Nat :=
  if p.fits r then .ok r else .error (.arithmeticOverflow pc)

end Sys2Proof.Machine
end

