-- ==== Sys2Proof/Machine/Operands.lean ====
section
/-! DEFINITION. Operands: the one addressing mode (spec/41_arithmetic.md R105), memory-indirect through a positional
operand cell. -/

namespace Sys2Proof.Machine

/-- `EA_k = MemRead(PC + k, 1)`: the unchanged value of operand cell `k` (R105); `k = 0` is the opcode cell. -/
def operandCell (s : State) (k : Nat) : Except Failure Nat := memRead s (s.pc + k)

/-- The two data reads of stage DR, `a_addr` first (R100): the second of the two composed accesses of R105. -/
def readSources (s : State) (aAddr bAddr : Nat) : Except Failure (Nat × Nat) := do
  let a ← memRead s aAddr
  let b ← memRead s bAddr
  return (a, b)

end Sys2Proof.Machine
end

