-- ==== Sys2Proof/Machine/Arithmetic.lean ====
section
/-! DEFINITION. Arithmetic: ADD and MULTIPLY (spec/41_arithmetic.md). -/

namespace Sys2Proof.Machine

/-- `ThreeAddress(f)` of R100 from stage DR on. The three operand cells have been read, in order, by the fetch of the
same step (`fetch`), which fails on a missing one before anything here runs. -/
def threeAddress (p : Params) (f : Nat → Nat → Nat) (aAddr bAddr dstAddr : Nat) (s : State) :
    Except Failure State := do
  let (a, b) ← readSources s aAddr bAddr
  let r ← checkRange p s.pc (f a b)
  let t ← memWrite s dstAddr r
  return advance t

/-- ADD under the parameters `p` (R101): `ThreeAddress(f)` with `f(a, b) = a + b`. -/
def addAt (p : Params) (aAddr bAddr dstAddr : Nat) (s : State) : Host.Outcome State Fault Refusal :=
  settle s (threeAddress p (fun a b => a + b) aAddr bAddr dstAddr s)

/-- MULTIPLY under the parameters `p` (R102): `ThreeAddress(f)` with `f(a, b) = a * b`. -/
def multiplyAt (p : Params) (aAddr bAddr dstAddr : Nat) (s : State) : Host.Outcome State Fault Refusal :=
  settle s (threeAddress p (fun a b => a * b) aAddr bAddr dstAddr s)

/-- ADD on the core (R101). -/
def execAdd (aAddr bAddr dstAddr : Nat) (s : State) : Host.Outcome State Fault Refusal :=
  addAt Config.core aAddr bAddr dstAddr s

/-- MULTIPLY on the core (R102). -/
def execMultiply (aAddr bAddr dstAddr : Nat) (s : State) : Host.Outcome State Fault Refusal :=
  multiplyAt Config.core aAddr bAddr dstAddr s

end Sys2Proof.Machine
end

