-- ==== Sys2Proof/Machine/Stop.lean ====
section
/-! DEFINITION. Stop: STOP (spec/42_halt_and_control.md R120). -/

namespace Sys2Proof.Machine

/-- STOP: `v <- MemRead(0, 1); halt(v)` (R120). In a step the read cannot fail, because the fetch succeeded; it is
written as the checked read all the same, as the source does. -/
def execStop (s : State) : Host.Outcome State Fault Refusal :=
  settle s (do
    let v ← memRead s 0
    return halt v s)

end Sys2Proof.Machine
end

