-- ==== Sys2Proof/Machine/Dispatch.lean ====
section
/-! DEFINITION. Dispatch: one arm per instruction (spec/40_sequencer.md R85). -/

namespace Sys2Proof.Machine

def exec (i : Instr) (s : State) : Host.Outcome State Fault Refusal :=
  match i with
  | .add aAddr bAddr dstAddr => Sys2Proof.Machine.execAdd aAddr bAddr dstAddr s
  | .multiply aAddr bAddr dstAddr => Sys2Proof.Machine.execMultiply aAddr bAddr dstAddr s
  | .stop => Sys2Proof.Machine.execStop s

end Sys2Proof.Machine
end

