-- ==== Sys2Proof/Machine/Fetch.lean ====
section
/-! DEFINITION. Fetch: stages IF, ID and OF of the step (spec/40_sequencer.md R82 to R84), the sequencer around an
instruction's meaning, and the placing of an instruction where the next fetch reads. -/

namespace Sys2Proof.Machine

/-- Fetch and decode the instruction at PC: the opcode cell by `MemRead(PC, 1)`, `Decode` on its whole value, then,
for ADD and MULTIPLY only, the operand cells at PC + 1, PC + 2 and PC + 3, in that order (R81, R100). Nothing is
decoded ahead of time (R68). -/
def fetch (s : State) : Except Failure Instr := decodeFrom (operandCell s) .unknownOpcode

/-- One pass of the loop of R81 around the meanings `meaning`: fetch, decode, dispatch. In Halted and in Failed there
is no step: the state is returned unchanged, and its STATUS marks it terminal (R80); it does not fetch. -/
def sequence (meaning : Instr → State → Host.Outcome State Fault Refusal) (s : State) :
    Host.Outcome State Fault Refusal :=
  match s.status with
  | .halted => .next s
  | .failed => .next s
  | .running =>
    match fetch s with
    | .ok i => meaning i s
    | .error e => .next (raise e s)

/-- Put `cells` at address `a` and on. -/
def placeCells (s : State) (a : Nat) : List Nat → State
  | [] => s
  | v :: vs => placeCells (s.setCell a v) (a + 1) vs

/-- `s` with the cells `cells` at PC and on, LEN long enough to hold them and STATUS Running: what the next step needs
to run exactly the instruction in them. It stands for a launch of an image that holds them. -/
def placeInstruction (s : State) (cells : List Nat) : State :=
  { placeCells s s.pc cells with len := max s.len (s.pc + cells.length), status := .running }

end Sys2Proof.Machine
end

