-- ==== Sys2Proof/Machine/Step.lean ====
section
/-! DEFINITION. Step: one step of the core (spec/40_sequencer.md R80, R81). -/

namespace Sys2Proof.Machine

/-- One step of the machine: one whole instruction, or one failure, in Running; the state itself in Halted and
Failed (R80, R81). -/
def step (s : State) : Host.Outcome State Fault Refusal := sequence exec s

/-- `s` with the instruction whose bits are `w` (numbered as spec/opcode_table.json numbers them, every bit from
`nbits` on 0) where the next step fetches. -/
def State.withFetchWord (s : State) (nbits w : Nat) : State := placeInstruction s (tableCells nbits w)

end Sys2Proof.Machine
end

