-- ==== Sys2Proof/Machine/Parametric.lean ====
section
/-! DEFINITION. Parametric: the same machine for any XLEN and MEMCAP, unbounded cells among them (spec/00_scope.md R5,
R6: "any XLEN, or unbounded cells, can be substituted without changing a rule", D1). Only the range check reads a
parameter, so the meanings are those of the core. -/

namespace Sys2Proof.Machine

/-- The meanings under the parameters `p`. -/
def execAt (p : Params) (i : Instr) (s : State) : Host.Outcome State Fault Refusal :=
  match i with
  | .add aAddr bAddr dstAddr => addAt p aAddr bAddr dstAddr s
  | .multiply aAddr bAddr dstAddr => multiplyAt p aAddr bAddr dstAddr s
  | .stop => execStop s

/-- One step under the parameters `p`. -/
def stepAt (p : Params) (s : State) : Host.Outcome State Fault Refusal := sequence (execAt p) s

end Sys2Proof.Machine
end

