-- ==== Sys2Proof/Machine/Launch.lean ====
section
/-! DEFINITION. Launch: the hardware's interface to its host (spec/70_reset_and_hazards.md R150 to R155): launch, which
is the only reset, and the reading of an outcome. The host has no move while a run is Running (R154). -/

namespace Sys2Proof.Machine

/-- An image the machine can hold: `n ≤ MEMCAP` cells, each below `2^XLEN` (R151). -/
def admissible (p : Params) (img : List Nat) : Bool := p.holds img.length && img.all p.fits

/-- The state after the launch of an image: every element at the value of the table of R34. -/
def State.ofImage (img : List Nat) : State where
  mem := Memory.ofImage img
  len := img.length
  pc := 0
  status := .running
  cause := .none
  info := 0
  result := 0

/-- Launch (R150): the state is made from the image alone, so nothing of an earlier run is left (R152). An image that
is not admissible is refused (R151). -/
def launch (p : Params) (img : List Nat) : Host.Outcome State Fault Refusal :=
  if admissible p img then .next (State.ofImage img) else .refused .inadmissibleImage

/-- Launch applied to a machine in the state `s` (R150: "Launch may be applied in any state"); a refused image changes
nothing (R151: "no launch happens, no state changes"). -/
def relaunch (p : Params) (img : List Nat) (s : State) : State :=
  match launch p img with
  | .next t => t
  | .fault _ => s
  | .refused _ => s

/-- Halted and Failed are the terminal states (R12). -/
def State.terminal (s : State) : Bool := s.status != .running

/-- The outcome of a run (R89). -/
inductive RunOutcome where
  /-- STATUS = Halted: the value of RESULT. -/
  | success (result : Nat)
  /-- STATUS = Failed: CAUSE and INFO. -/
  | failure (cause : Cause) (info : Nat)
  deriving DecidableEq, Repr

/-- What the host reads of a run's outcome (R155): RESULT of a halted run, CAUSE and INFO of a failed one, and nothing
while the run is Running (R154). LEN, PC and the cells are read by `hostLen`, `hostPc` and `hostCell`. -/
def State.outcome (s : State) : Option RunOutcome :=
  match s.status with
  | .running => none
  | .halted => some (.success s.result)
  | .failed => some (.failure s.cause s.info)

/-- The host's reading of a cell: in Halted, of a cell of the run; after a failure "the caller must treat Memory as
unusable", so it reads none (R155, R136). -/
def State.hostCell (s : State) (a : Nat) : Option Nat :=
  match s.status with
  | .halted => if a < s.len then some (s.cell a) else none
  | .running => none
  | .failed => none

/-- The host's reading of PC, in a terminal state (R155, D20). DEDUCED for Failed, notes/assumptions/19.md. -/
def State.hostPc (s : State) : Option Nat :=
  match s.status with
  | .running => none
  | .halted => some s.pc
  | .failed => some s.pc

/-- The host's reading of LEN, in a terminal state: D5 counts LEN among the registers "readable by the host", and
spec/10_state.md section 5 says the host reads it through R155, which does not list it. DEDUCED,
notes/assumptions/20.md. -/
def State.hostLen (s : State) : Option Nat :=
  match s.status with
  | .running => none
  | .halted => some s.len
  | .failed => some s.len

end Sys2Proof.Machine
end

