-- ==== Sys2Proof/Machine/Run.lean ====
section
/-! DEFINITION. Run: a run from launch to its terminal state (spec/40_sequencer.md R89, R90). -/

namespace Sys2Proof.Machine

/-- `k` steps under the parameters `p`. A terminal state is left as it is (R80). -/
def runAt (p : Params) : Nat → State → Host.Outcome State Fault Refusal
  | 0, s => .next s
  | k + 1, s =>
    match stepAt p s with
    | .next t => runAt p k t
    | .fault r => .fault r
    | .refused r => .refused r

/-- The budget of R166 that is always enough: `floor(LEN / 4) + 1` steps. -/
def State.stepBound (s : State) : Nat := s.len / 4 + 1

/-- The source's `execute`: "launch, then step until terminal" (R89). -/
def execute (p : Params) (img : List Nat) : Host.Outcome State Fault Refusal :=
  match launch p img with
  | .next s => runAt p s.stepBound s
  | .fault r => .fault r
  | .refused r => .refused r

end Sys2Proof.Machine
end

