-- ==== Sys2Proof/Machine/Driver.lean ====
section
/-! DEFINITION. Driver: the source's search driver (spec/70_reset_and_hazards.md R156 to R162). It is the host's, outside
the CORE (R4 c); the spec records it, and it is modelled here from those rules. -/

namespace Sys2Proof.Machine

/-- The open choice of R160 (D14): what a scan does when a run fails. -/
inductive OnRunFailure where
  /-- The reference behaviour: the search ends with that run's failure. -/
  | abortSearch
  /-- The pair counts as non-matching. -/
  | skipPair
  deriving DecidableEq, Repr

/-- The host's parameters (R7). They are integers; the scan ranges are `[0, N)` and `[0, V)` (R156). -/
structure SearchConfig where
  /-- `target_value`; the spec gives no value for it. -/
  target : Int
  /-- `noun_bound`, N. -/
  nounBound : Int
  /-- `verb_bound`, V. -/
  verbBound : Int
  /-- `on_run_failure`. -/
  onRunFailure : OnRunFailure
  deriving DecidableEq, Repr

/-- `write(addr, value)` on the host's clone of the image: the contract of R42 with the clone's length as the bound
(R157). -/
def pokeCell (img : List Nat) (a : Nat) (v : Nat) : Except Failure (List Nat) :=
  if img.length ≤ a then .error (.outOfBounds a) else .ok (img.set a v)

/-- `write(1, noun)`, then `write(2, verb)`, on a clone of the image (R157). -/
def poke (img : List Nat) (noun verb : Nat) : Except Failure (List Nat) := do
  let img1 ← pokeCell img 1 noun
  pokeCell img1 2 verb

/-- What one pair of the scan gives. -/
inductive PairOutcome where
  /-- The run halted with this RESULT. -/
  | result (v : Nat)
  /-- The run failed, or a poke did, which is treated "exactly like a failed run of that pair" (R161). -/
  | failed (cause : Cause) (info : Nat)
  /-- The image was refused at launch and there was no run (R151); a run with no outcome, which R90 excludes, would count
  here too. -/
  | noRun
  deriving DecidableEq, Repr

/-- One iteration of the scan: clone, poke, run (R157). -/
def runPair (p : Params) (img : List Nat) (noun verb : Nat) : PairOutcome :=
  match poke img noun verb with
  | .error e => .failed e.cause e.info
  | .ok poked =>
    match execute p poked with
    | .next t =>
      match t.outcome with
      | some (.success v) => .result v
      | some (.failure c i) => .failed c i
      | none => .noRun
    | .fault _ => .noRun
    | .refused _ => .noRun

/-- What a search ends with. -/
inductive SearchOutcome where
  /-- A pair matched: `100*noun + verb`, in the host's own integers (R158). -/
  | found (report : Nat)
  /-- The grid is exhausted: "an outcome, not an error" (R159). -/
  | notFound
  /-- A run failed under `abortSearch` (R160). -/
  | aborted (cause : Cause) (info : Nat)
  /-- The machine refused a poked image. The spec does not say how a scan goes on: it ends. DESIGN CHOICE,
  notes/assumptions/13.md. -/
  | imageRefused
  deriving DecidableEq, Repr

/-- The pairs in scan order: row-major, noun outer, verb inner, half-open ranges (R156). -/
def scanOrder (nounBound verbBound : Nat) : List (Nat × Nat) :=
  (List.range nounBound).flatMap fun n => (List.range verbBound).map fun v => (n, v)

/-- The scan of a list of pairs: the first match wins (R158 to R160). -/
def scan (p : Params) (cfg : SearchConfig) (img : List Nat) : List (Nat × Nat) → SearchOutcome
  | [] => .notFound
  | (n, v) :: rest =>
    match runPair p img n v with
    | .result r => if (r : Int) = cfg.target then .found (100 * n + v) else scan p cfg img rest
    | .failed c i =>
      match cfg.onRunFailure with
      | .abortSearch => .aborted c i
      | .skipPair => scan p cfg img rest
    | .noRun => .imageRefused

/-- The search over the whole grid (R156). -/
def search (p : Params) (cfg : SearchConfig) (img : List Nat) : SearchOutcome :=
  scan p cfg img (scanOrder cfg.nounBound.toNat cfg.verbBound.toNat)

end Sys2Proof.Machine
end

