-- ==== Sys2Proof/Machine/Trace.lean ====
section
/-! DEFINITION. Trace: the memory accesses of one step, in order (spec/40_sequencer.md R92). A modelling aid of the
spec, not a part of the machine (R144). -/

namespace Sys2Proof.Machine

/-- One access: `R a`, or `W a v` (R92). -/
inductive Access where
  /-- `R a`. -/
  | read (a : Nat)
  /-- `W a v`. -/
  | write (a : Nat) (v : Nat)
  deriving DecidableEq, Repr

/-- A read of `a` and, unless it raises, what comes after it: "The step stops at the first access that raises and that
access is the last entry of its trace" (R92). -/
def readThen (s : State) (a : Nat) (rest : List Access) : List Access :=
  .read a :: if s.len ≤ a then [] else rest

/-- The accesses of an ADD or MULTIPLY after its fetch. A step that overflows makes its reads and no write (R92). -/
def arithmeticTrace (p : Params) (f : Nat → Nat → Nat) (s : State) : List Access :=
  let a := s.cell (s.pc + 1)
  let b := s.cell (s.pc + 2)
  let r := f (s.cell a) (s.cell b)
  readThen s (s.pc + 1) <| readThen s (s.pc + 2) <| readThen s (s.pc + 3) <| readThen s a <| readThen s b <|
    if p.fits r then [.write (s.cell (s.pc + 3)) r] else []

/-- The accesses of the step from `s` (the table of R92); none in a terminal state (R80). -/
def stepTrace (p : Params) (s : State) : List Access :=
  if s.terminal then []
  else readThen s s.pc <|
    match decodeOpcode (s.cell s.pc) with
    | some .add => arithmeticTrace p (fun a b => a + b) s
    | some .multiply => arithmeticTrace p (fun a b => a * b) s
    | some .stop => readThen s 0 []
    | none => []

end Sys2Proof.Machine
end

