-- ==== Sys2Proof/Safety.lean ====
section
/-! DEFINITION. Safety: the failure a step meets first, the invariant of the machine, and the words claims use. -/

namespace Sys2Proof.Machine

/-- Checks 3 to 9 of the table of spec/60_exceptions.md R134, for an ADD or MULTIPLY whose function is `f`. -/
def arithmeticFailure (p : Params) (f : Nat → Nat → Nat) (s : State) : Option Failure :=
  if s.len ≤ s.pc + 1 then some (.outOfBounds (s.pc + 1))
  else if s.len ≤ s.pc + 2 then some (.outOfBounds (s.pc + 2))
  else if s.len ≤ s.pc + 3 then some (.outOfBounds (s.pc + 3))
  else if s.len ≤ s.cell (s.pc + 1) then some (.outOfBounds (s.cell (s.pc + 1)))
  else if s.len ≤ s.cell (s.pc + 2) then some (.outOfBounds (s.cell (s.pc + 2)))
  else if p.fits (f (s.cell (s.cell (s.pc + 1))) (s.cell (s.cell (s.pc + 2)))) = false then
    some (.arithmeticOverflow s.pc)
  else if s.len ≤ s.cell (s.pc + 3) then some (.outOfBounds (s.cell (s.pc + 3)))
  else none

/-- The table of R134 as it stands: the failure the step at PC meets first, `none` where it meets none. It reads MEM,
LEN and PC only, which a failure leaves unchanged, so it also says why a Failed machine failed. -/
def firstFailure (p : Params) (s : State) : Option Failure :=
  if s.len ≤ s.pc then some (.outOfBounds s.pc)
  else if s.cell s.pc = 1 then arithmeticFailure p (fun a b => a + b) s
  else if s.cell s.pc = 2 then arithmeticFailure p (fun a b => a * b) s
  else if s.cell s.pc = 99 then none
  else some (.unknownOpcode (s.cell s.pc))

/-- The invariant of the machine. Every launch establishes it and every step keeps it. -/
structure Inv (p : Params) (s : State) : Prop where
  /-- The list of cells is in its canonical form. -/
  memCanonical : s.mem.wf
  /-- Only cells of the run are listed (R24). -/
  memInBounds : ∀ c ∈ s.mem, c.1 < s.len
  /-- Every cell holds an XLEN-bit value (R5). -/
  memFits : ∀ c ∈ s.mem, p.fits c.2 = true
  /-- `LEN ≤ MEMCAP` (R25). -/
  lenHeld : p.holds s.len = true
  /-- R23 (b). -/
  pcInRange : s.pc ≤ s.len
  /-- R23 (a). -/
  pcAligned : 4 ∣ s.pc
  /-- R27, R28, R29: the outcome registers while Running. -/
  runningRecord : s.status = .running → s.cause = .none ∧ s.info = 0 ∧ s.result = 0
  /-- R27, R28, R29, R22: in Halted, RESULT is cell 0 and PC is the address of the STOP opcode. -/
  haltedRecord : s.status = .halted →
    s.cause = .none ∧ s.info = 0 ∧ s.result = s.cell 0 ∧ s.pc < s.len ∧ s.cell s.pc = 99
  /-- R135, R134: in Failed, CAUSE and INFO are those of the first failure of the instruction at PC. -/
  failedRecord : s.status = .failed →
    s.result = 0 ∧ ∃ e, firstFailure p s = some e ∧ s.cause = e.cause ∧ s.info = e.info

/-- A safe step: the machine is Running and the instruction at PC meets no failure. -/
def SafeStep (p : Params) (s : State) : Prop := s.status = .running ∧ firstFailure p s = none

/-- Two states agree on everything but the cells. -/
def SameRegisters (s t : State) : Prop :=
  s.len = t.len ∧ s.pc = t.pc ∧ s.status = t.status ∧ s.cause = t.cause ∧ s.info = t.info ∧ s.result = t.result

/-- The state a failure leaves (spec/60_exceptions.md R135): CAUSE, INFO and STATUS as given, all else as in `s`. -/
def failedState (s : State) (c : Cause) (info : Nat) : State :=
  { s with cause := c, info := info, status := .failed }

/-- `o` is the next state of an ADD or MULTIPLY that completed from `s`, writing `r` to cell `d` (spec/41_arithmetic.md
R100): exactly one cell and PC are written. -/
def Completes (s : State) (d r : Nat) (o : Host.Outcome State Fault Refusal) : Prop :=
  ∃ t, o = .next t ∧ t.cell d = r ∧ (∀ j, j ≠ d → t.cell j = s.cell j) ∧ t.pc = s.pc + 4 ∧ t.len = s.len ∧
    t.status = s.status ∧ t.cause = s.cause ∧ t.info = s.info ∧ t.result = s.result

/-- How many of the first `k` steps from `s` complete an ADD or MULTIPLY: those that end in Running (R88). -/
def completedSteps (p : Params) : Nat → State → Nat
  | 0, _ => 0
  | k + 1, s =>
    match stepAt p s with
    | .next t => (if t.status = .running then 1 else 0) + completedSteps p k t
    | .fault _ => 0
    | .refused _ => 0

/-- A run of bounded cells that has ended in ArithmeticOverflow, where the unbounded machine goes on (R103). -/
def Overflowed (s : State) : Prop := s.status = .failed ∧ s.cause = .arithmeticOverflow

/-- PC is 4 times the number `n` of ADD and MULTIPLY instructions completed, and at most LEN (R23 b, c). -/
def PcCounts (n : Nat) (s : State) : Prop := s.pc = 4 * n ∧ s.pc ≤ s.len

/-- The pair's run gave the target (R158). -/
def Matches (p : Params) (cfg : SearchConfig) (img : List Nat) (q : Nat × Nat) : Prop :=
  ∃ r, runPair p img q.1 q.2 = .result r ∧ (r : Int) = cfg.target

/-- The scan goes on after the pair: its run gave another result (R158), or it failed under `skip_pair` (R160). -/
def PassedOver (p : Params) (cfg : SearchConfig) (img : List Nat) (q : Nat × Nat) : Prop :=
  (∃ r, runPair p img q.1 q.2 = .result r ∧ (r : Int) ≠ cfg.target) ∨
    (cfg.onRunFailure = .skipPair ∧ ∃ c i, runPair p img q.1 q.2 = .failed c i)

end Sys2Proof.Machine
end

