-- ==== Sys2Proof/Certificates/Slice0/Obligations.lean ====
section
/-! DEFINITION. Obligations: the statements about the model, from the spec's numbered rules. Each docstring names the
rule it formalises. No statement rests on a free value: the model has none. -/

open Sys2Proof Sys2Proof.Machine

/-! ### Decoding and encoding -/

/-- R63, R66: Decode compares the whole cell value; 1, 2 and 99 are the three opcodes and every other value is rejected
by name with the value, whatever cells follow. -/
def Obligations.DecodeIsTheClosedEnumeration : Prop :=
  ∀ (v : Nat) (rest : List Nat),
    (decodeOpcode v = some .add ↔ v = 1) ∧ (decodeOpcode v = some .multiply ↔ v = 2) ∧
    (decodeOpcode v = some .stop ↔ v = 99) ∧ (decodeOpcode v = none ↔ v ≠ 1 ∧ v ≠ 2 ∧ v ≠ 99) ∧
    (v ≠ 1 ∧ v ≠ 2 ∧ v ≠ 99 ↔ decode (v :: rest) = .error (.unknownOpcode v))

/-- R61, R62, R67: a few words of spec/opcode_table.json, written out cell by cell, decode to their instructions. -/
def Obligations.SampleWordsDecode : Prop :=
  decode [1, 9, 10, 3] = .ok (.add 9 10 3) ∧ decode [2, 3, 11, 0] = .ok (.multiply 3 11 0) ∧ decode [99] = .ok .stop ∧
  decodeTableWord 256 (1 + 9 * 2 ^ 64 + 10 * 2 ^ 128 + 3 * 2 ^ 192) = some (.add 9 10 3) ∧
  decodeTableWord 256 (2 + 3 * 2 ^ 64 + 11 * 2 ^ 128) = some (.multiply 3 11 0) ∧
  decodeTableWord 64 99 = some .stop ∧ decodeTableWord 64 101 = none ∧ decodeTableWord 256 (1 + 2 ^ 32) = none

/-- R60 to R65: for every well-formed instruction, the decoder reads back from its bits exactly that instruction, with
every operand at every value a cell admits. -/
def Obligations.TableWordRoundTrip : Prop :=
  ∀ i : Instr, i.wellFormed = true → decodeTableWord (tableBits i) (tableWord i) = some i

/-- R63 to R65: every word the decoder accepts is the word of a well-formed instruction: the bits of the instruction
are those of its encoding, and no accepted word stands for two instructions. -/
def Obligations.DecodedWordsAreEncodings : Prop :=
  ∀ (nbits w : Nat) (i : Instr), decodeTableWord nbits w = some i →
    i.wellFormed = true ∧ (w % 2 ^ nbits) % 2 ^ tableBits i = tableWord i

/-! ### Memory -/

/-- R42: a write inside LEN sets one cell and nothing else; a write that raises writes nothing (it gives no state). -/
def Obligations.MemWriteSetsExactlyOneCell : Prop :=
  ∀ (s : State) (a v : Nat),
    (a < s.len → ∃ t, memWrite s a v = .ok t ∧ t.cell a = v ∧ (∀ j, j ≠ a → t.cell j = s.cell j) ∧
      SameRegisters s t) ∧
    (s.len ≤ a → memWrite s a v = .error (.outOfBounds a))

/-- R44: an address is valid exactly when it is below LEN: both primitives succeed there and raise OutOfBounds with the
full address elsewhere, and a read succeeding gives that very cell, never another one. -/
def Obligations.AddressValidExactlyBelowLen : Prop :=
  ∀ (s : State) (a v : Nat),
    (memRead s a = .ok (s.cell a) ↔ a < s.len) ∧ ((∃ t, memWrite s a v = .ok t) ↔ a < s.len) ∧
    (memRead s a = .error (.outOfBounds a) ↔ s.len ≤ a) ∧
    (memWrite s a v = .error (.outOfBounds a) ↔ s.len ≤ a)

/-! ### Launch -/

/-- R150, R34, R152: the launch of an admissible image, from any state, leaves exactly the state of the table of R34,
and nothing of the state it was applied to. -/
def Obligations.LaunchSetsEveryElement : Prop :=
  ∀ (img : List Nat) (s : State), img.length ≤ Config.memcap → (∀ v ∈ img, v < 2 ^ Config.xlen) →
    ∃ t, launch Config.core img = .next t ∧ relaunch Config.core img s = t ∧ t.len = img.length ∧
      (∀ (i : Nat) (h : i < img.length), t.cell i = img[i]) ∧ t.pc = 0 ∧ t.status = .running ∧ t.cause = .none ∧
      t.info = 0 ∧ t.result = 0

/-- R151: an image is refused exactly when it is too long or holds a value no cell can hold; then no state changes. The
empty image is admitted, and its run fails at once with OutOfBounds(0). -/
def Obligations.InadmissibleImageIsRefused : Prop :=
  (∀ (img : List Nat) (s : State),
    (launch Config.core img = .refused .inadmissibleImage ↔
      Config.memcap < img.length ∨ ∃ v ∈ img, 2 ^ Config.xlen ≤ v) ∧
    (Config.memcap < img.length ∨ (∃ v ∈ img, 2 ^ Config.xlen ≤ v) → relaunch Config.core img s = s)) ∧
  ∃ s, launch Config.core [] = .next s ∧ step s = .next (failedState s .outOfBounds 0)

/-- R154, R155, D5, D20: while the run is Running the host reads no outcome, no cell, no PC and no LEN; in Halted it reads
RESULT, PC, LEN and exactly the cells of the run; in Failed it reads CAUSE, INFO, PC and LEN, and no cell. That it reads PC
in Failed and LEN at all is DEDUCED by the model (notes/assumptions/19.md and 20.md). -/
def Obligations.HostReadsOnlyTerminalStates : Prop :=
  ∀ (s : State) (a : Nat),
    (s.status = .running → s.outcome = none ∧ s.hostCell a = none ∧ s.hostPc = none ∧ s.hostLen = none) ∧
    (s.status = .halted → s.outcome = some (.success s.result) ∧ s.hostPc = some s.pc ∧ s.hostLen = some s.len ∧
      ∀ v, s.hostCell a = some v ↔ a < s.len ∧ v = s.cell a) ∧
    (s.status = .failed → s.outcome = some (.failure s.cause s.info) ∧ s.hostPc = some s.pc ∧ s.hostLen = some s.len ∧
      s.hostCell a = none)

/-! ### The step -/

/-- R80: the machine takes a step (a change of state) if and only if it is Running. The second clause is the model's
choice: of the two readings R80 allows, a step in Halted and in Failed answers the state as it is
(notes/assumptions/8.md, DESIGN CHOICE), and that nothing is fetched there is read off `stepTrace`, a function beside the
step (notes/assumptions/15.md, DESIGN CHOICE). -/
def Obligations.StepsExactlyWhileRunning : Prop :=
  ∀ s : State, ((∃ t, step s = .next t ∧ t ≠ s) ↔ s.status = .running) ∧
    (s.status ≠ .running → step s = .next s ∧ stepTrace Config.core s = [])

/-- R81: when the cells at PC are those of the instruction `i`, the step is `exec i`; nothing stands around it. -/
def Obligations.StepRunsTheStoredInstruction : Prop :=
  ∀ (s : State) (i : Instr), s.status = .running →
    (∀ k (h : k < (encode i).length), s.pc + k < s.len ∧ s.cell (s.pc + k) = (encode i)[k]) → step s = exec i s

/-- The fixed operation `State.withFetchWord` (notes/assumptions/7.md): the instruction placed is the one the next step
runs, in whatever state it is placed. -/
def Obligations.PlacedInstructionIsRun : Prop :=
  ∀ (s : State) (nbits w : Nat) (i : Instr), decodeTableWord nbits w = some i →
    step (s.withFetchWord nbits w) = exec i (s.withFetchWord nbits w)

/-- R101, with the exceptions in the order in which it lists them: an ADD at PC writes the exact sum and moves PC on by 4,
or fails on the first check whose condition holds and changes nothing else. -/
def Obligations.AddStepFollowsItsRule : Prop :=
  ∀ s : State, s.status = .running → s.pc < s.len → s.cell s.pc = 1 →
    let a := s.cell (s.pc + 1)
    let b := s.cell (s.pc + 2)
    let d := s.cell (s.pc + 3)
    let r := s.cell a + s.cell b
    if s.len ≤ s.pc + 1 then step s = .next (failedState s .outOfBounds (s.pc + 1))
    else if s.len ≤ s.pc + 2 then step s = .next (failedState s .outOfBounds (s.pc + 2))
    else if s.len ≤ s.pc + 3 then step s = .next (failedState s .outOfBounds (s.pc + 3))
    else if s.len ≤ a then step s = .next (failedState s .outOfBounds a)
    else if s.len ≤ b then step s = .next (failedState s .outOfBounds b)
    else if 2 ^ Config.xlen ≤ r then step s = .next (failedState s .arithmeticOverflow s.pc)
    else if s.len ≤ d then step s = .next (failedState s .outOfBounds d)
    else Completes s d r (step s)

/-- R102: as ADD, with the full exact product. -/
def Obligations.MultiplyStepFollowsItsRule : Prop :=
  ∀ s : State, s.status = .running → s.pc < s.len → s.cell s.pc = 2 →
    let a := s.cell (s.pc + 1)
    let b := s.cell (s.pc + 2)
    let d := s.cell (s.pc + 3)
    let r := s.cell a * s.cell b
    if s.len ≤ s.pc + 1 then step s = .next (failedState s .outOfBounds (s.pc + 1))
    else if s.len ≤ s.pc + 2 then step s = .next (failedState s .outOfBounds (s.pc + 2))
    else if s.len ≤ s.pc + 3 then step s = .next (failedState s .outOfBounds (s.pc + 3))
    else if s.len ≤ a then step s = .next (failedState s .outOfBounds a)
    else if s.len ≤ b then step s = .next (failedState s .outOfBounds b)
    else if 2 ^ Config.xlen ≤ r then step s = .next (failedState s .arithmeticOverflow s.pc)
    else if s.len ≤ d then step s = .next (failedState s .outOfBounds d)
    else Completes s d r (step s)

/-- R120: a STOP at PC latches cell 0 in RESULT and halts; PC, MEM, CAUSE and INFO stay, and no cell after the opcode
matters (PC may be LEN − 1). -/
def Obligations.StopStepHaltsWithCellZero : Prop :=
  ∀ s : State, s.status = .running → s.pc < s.len → s.cell s.pc = 99 →
    step s = .next { s with result := s.cell 0, status := .halted }

/-- R132, R66: an opcode cell with any other value ends the run with UnknownOpcode and that value, and changes nothing
else, however many cells follow it. -/
def Obligations.UnknownOpcodeEndsTheRun : Prop :=
  ∀ s : State, s.status = .running → s.pc < s.len → s.cell s.pc ≠ 1 → s.cell s.pc ≠ 2 → s.cell s.pc ≠ 99 →
    step s = .next (failedState s .unknownOpcode (s.cell s.pc))

/-- R134: a step reports the failure its table puts first, and fails only if the table gives one. -/
def Obligations.FirstFailureIsReported : Prop :=
  ∀ s : State, s.status = .running →
    (∀ e, firstFailure Config.core s = some e → step s = .next (failedState s e.cause e.info)) ∧
    (firstFailure Config.core s = none → ∃ t, step s = .next t ∧ t.status ≠ .failed)

/-- R135, R86, R87: a step that fails writes CAUSE, INFO and STATUS and nothing else: MEM, LEN, PC and RESULT are those
of the start of the step. -/
def Obligations.FailureEntryKeepsTheRest : Prop :=
  ∀ s t : State, s.status = .running → step s = .next t → t.status = .failed →
    t.mem = s.mem ∧ t.len = s.len ∧ t.pc = s.pc ∧ t.result = s.result ∧ t.cause ≠ .none

/-- R131, R132, R133, R28: what the record of a failed step says. -/
def Obligations.FailureRecordNamesTheOffender : Prop :=
  ∀ s t : State, s.status = .running → step s = .next t → t.status = .failed →
    (t.cause = .outOfBounds ∧ s.len ≤ t.info ∧
      (t.info = s.pc ∨ t.info = s.pc + 1 ∨ t.info = s.pc + 2 ∨ t.info = s.pc + 3 ∨
        t.info = s.cell (s.pc + 1) ∨ t.info = s.cell (s.pc + 2) ∨ t.info = s.cell (s.pc + 3))) ∨
    (t.cause = .unknownOpcode ∧ s.pc < s.len ∧ t.info = s.cell s.pc ∧ t.info ≠ 1 ∧ t.info ≠ 2 ∧ t.info ≠ 99) ∨
    (t.cause = .arithmeticOverflow ∧ s.pc + 3 < s.len ∧ t.info = s.pc ∧
      ((s.cell s.pc = 1 ∧
          2 ^ Config.xlen ≤ s.cell (s.cell (s.pc + 1)) + s.cell (s.cell (s.pc + 2))) ∨
        (s.cell s.pc = 2 ∧
          2 ^ Config.xlen ≤ s.cell (s.cell (s.pc + 1)) * s.cell (s.cell (s.pc + 2)))))

/-- R88: the transitions of STATUS, with what else each changes: a completed ADD or MULTIPLY stays Running and changes
the destination cell, to the exact sum or product, and PC; STOP halts and writes RESULT; a failure writes CAUSE and INFO; a launch leads to Running from any state
and overwrites everything; there is no other. -/
def Obligations.StatusTransitionsAreTheFour : Prop :=
  (∀ s t : State, s.status = .running → step s = .next t →
    (t.status = .running ∧ (s.cell s.pc = 1 ∨ s.cell s.pc = 2) ∧ t.pc = s.pc + 4 ∧
      s.cell (s.pc + 3) < s.len ∧
      (s.cell s.pc = 1 → t.cell (s.cell (s.pc + 3)) = s.cell (s.cell (s.pc + 1)) + s.cell (s.cell (s.pc + 2))) ∧
      (s.cell s.pc = 2 → t.cell (s.cell (s.pc + 3)) = s.cell (s.cell (s.pc + 1)) * s.cell (s.cell (s.pc + 2))) ∧
      (∀ j, j ≠ s.cell (s.pc + 3) → t.cell j = s.cell j) ∧ t.len = s.len ∧ t.cause = s.cause ∧ t.info = s.info ∧
      t.result = s.result) ∨
    (t.status = .halted ∧ s.cell s.pc = 99 ∧ t = { s with status := .halted, result := s.cell 0 }) ∨
    (t.status = .failed ∧ ∃ c i, t = { s with status := .failed, cause := c, info := i })) ∧
  (∀ s t : State, s.status ≠ .running → step s = .next t → t.status = s.status) ∧
  (∀ (s s' : State) (img : List Nat), admissible Config.core img = true →
    (relaunch Config.core img s).status = .running ∧ relaunch Config.core img s = relaunch Config.core img s')

/-- R123: running off the end. At PC = LEN the fetch fails on LEN; an ADD or MULTIPLY cut off by the end fails on its
first missing operand cell, which is LEN; another value is an unknown opcode. -/
def Obligations.RunningOffTheEndFails : Prop :=
  ∀ s : State, s.status = .running →
    (s.pc = s.len → step s = .next (failedState s .outOfBounds s.len)) ∧
    (s.pc < s.len → s.len ≤ s.pc + 3 → s.cell s.pc = 1 ∨ s.cell s.pc = 2 →
      step s = .next (failedState s .outOfBounds s.len)) ∧
    (s.pc < s.len → s.cell s.pc ≠ 1 → s.cell s.pc ≠ 2 → s.cell s.pc ≠ 99 →
      step s = .next (failedState s .unknownOpcode (s.cell s.pc)))

/-- R122: STOP is the one way into Halted: a step from Running halts exactly when PC points at a cell of the run that
holds 99. -/
def Obligations.OnlyStopHalts : Prop :=
  ∀ s : State, s.status = .running →
    ((∃ t, step s = .next t ∧ t.status = .halted) ↔ s.pc < s.len ∧ s.cell s.pc = 99)

/-- R50, R25: the number of cells is constant: no step changes LEN, and an instruction whose destination lies beyond the
end does not grow the memory but fails and writes nothing. -/
def Obligations.LenIsConstant : Prop :=
  (∀ s t : State, step s = .next t → t.len = s.len) ∧
  (∀ (s : State) (a b d : Nat), s.len ≤ d →
    (∃ t, exec (.add a b d) s = .next t ∧ t.status = .failed ∧ t.mem = s.mem) ∧
    (∃ t, exec (.multiply a b d) s = .next t ∧ t.status = .failed ∧ t.mem = s.mem))

/-! ### Completion and frame of each instruction -/

/-- R100, R101: ADD completes whenever its three addresses are valid and the exact sum fits a cell; then it writes the sum
to the destination, whichever of the addresses are equal, and moves PC on by 4. -/
def Obligations.AddCompletes : Prop :=
  ∀ (s : State) (a b d : Nat), a < s.len → b < s.len → d < s.len → s.cell a + s.cell b < 2 ^ Config.xlen →
    Completes s d (s.cell a + s.cell b) (exec (.add a b d) s)

/-- R100, R102: MULTIPLY completes whenever its three addresses are valid and the exact product fits a cell. -/
def Obligations.MultiplyCompletes : Prop :=
  ∀ (s : State) (a b d : Nat), a < s.len → b < s.len → d < s.len → s.cell a * s.cell b < 2 ^ Config.xlen →
    Completes s d (s.cell a * s.cell b) (exec (.multiply a b d) s)

/-- R120: STOP completes whenever cell 0 exists, which the fetch of its own step guarantees. -/
def Obligations.StopCompletes : Prop :=
  ∀ s : State, 0 < s.len →
    ∃ t, exec .stop s = .next t ∧ t.status = .halted ∧ t.result = s.cell 0 ∧ t.pc = s.pc ∧ t.mem = s.mem ∧
      t.len = s.len ∧ t.cause = s.cause ∧ t.info = s.info

/-- R100, R42, R135: the frame of ADD and MULTIPLY. LEN, RESULT and every cell but the destination are never changed.
When PC moves on, CAUSE, INFO and STATUS are kept; when it does not, the instruction has failed and no cell at all has
changed. -/
def Obligations.ArithmeticFrame : Prop :=
  ∀ (s t : State) (a b d : Nat),
    (exec (.add a b d) s = .next t ∨ exec (.multiply a b d) s = .next t) →
    t.len = s.len ∧ t.result = s.result ∧ (∀ x, x ≠ d → t.cell x = s.cell x) ∧
    (t.pc = s.pc + 4 ∧ t.status = s.status ∧ t.cause = s.cause ∧ t.info = s.info ∨
      t.pc = s.pc ∧ t.status = .failed ∧ ∀ x, t.cell x = s.cell x)

/-- R120: the frame of STOP: LEN, PC and every cell are never changed; CAUSE and INFO are kept when it halts. The second
case is the model's own (notes/assumptions/10.md, DEDUCED): R120 says that no exception can occur, because the fetch of the
same step found a cell; `exec` of STOP at LEN = 0, which no step reaches, fails on its checked read of cell 0. -/
def Obligations.StopFrame : Prop :=
  ∀ s t : State, exec .stop s = .next t →
    t.len = s.len ∧ t.pc = s.pc ∧ (∀ x, t.cell x = s.cell x) ∧
    (t.status = .halted ∧ t.cause = s.cause ∧ t.info = s.info ∨
      t.status = .failed ∧ s.len = 0 ∧ t.result = s.result)

/-- R103: exchanging the two source addresses changes nothing in the result of a completed instruction. -/
def Obligations.SourcesCommute : Prop :=
  ∀ (s t : State) (a b d : Nat), s.status = .running → t.status = .running →
    (exec (.add a b d) s = .next t → exec (.add b a d) s = .next t) ∧
    (exec (.multiply a b d) s = .next t → exec (.multiply b a d) s = .next t)

/-- R71: `ADD a, z, d` with 0 in cell z, and `MULTIPLY a, o, d` with 1 in cell o, copy cell a to cell d. The value
copied has to be one a cell can hold. -/
def Obligations.CopyIdioms : Prop :=
  ∀ (s : State) (a c d : Nat), a < s.len → c < s.len → d < s.len → s.cell a < 2 ^ Config.xlen →
    (s.cell c = 0 → Completes s d (s.cell a) (exec (.add a c d) s)) ∧
    (s.cell c = 1 → Completes s d (s.cell a) (exec (.multiply a c d) s))

/-- R54, R104 (d), R164: a write into the very next opcode cell is what the next step decodes. After an ADD or MULTIPLY
at PC that completes with destination PC + 4, the next step halts if 99 was written, and fails with UnknownOpcode and the
value if it is no opcode. If 1 or 2 was written, the next step runs that ADD or MULTIPLY with the operand cells that
follow it, as they stand after the write (the source's chained example S3 writes a 2), or fails on the first of them beyond
the end, which is LEN (R123). In every case it sees the value written, not the old one. -/
def Obligations.NextFetchSeesTheWrite : Prop :=
  ∀ (s t : State) (r : Nat), s.status = .running → s.pc + 4 < s.len → step s = .next t → t.status = .running →
    s.cell (s.pc + 3) = s.pc + 4 → t.cell (s.pc + 4) = r →
    ((s.cell s.pc = 1 ∧ r = s.cell (s.cell (s.pc + 1)) + s.cell (s.cell (s.pc + 2))) ∨
      (s.cell s.pc = 2 ∧ r = s.cell (s.cell (s.pc + 1)) * s.cell (s.cell (s.pc + 2)))) ∧
    (r = 99 → ∃ u, step t = .next u ∧ u.status = .halted ∧ u.result = t.cell 0) ∧
    (r ≠ 1 → r ≠ 2 → r ≠ 99 → step t = .next (failedState t .unknownOpcode r)) ∧
    (r = 1 → s.pc + 7 < s.len →
      step t = exec (.add (t.cell (s.pc + 5)) (t.cell (s.pc + 6)) (t.cell (s.pc + 7))) t) ∧
    (r = 2 → s.pc + 7 < s.len →
      step t = exec (.multiply (t.cell (s.pc + 5)) (t.cell (s.pc + 6)) (t.cell (s.pc + 7))) t) ∧
    (r = 1 ∨ r = 2 → s.len ≤ s.pc + 7 → step t = .next (failedState t .outOfBounds s.len))

/-! ### The access trace

`stepTrace` is a function beside the step (notes/assumptions/15.md); these three statements tie it to the step. -/

/-- R92, R47: the accesses of a step that meets no failure are those of the table, in its order: six reads and one write
for ADD and MULTIPLY, two reads for STOP. -/
def Obligations.TraceOfASafeStep : Prop :=
  ∀ s : State, SafeStep Config.core s →
    (∀ f : Nat → Nat → Nat,
      (s.cell s.pc = 1 ∧ f = fun a b => a + b) ∨ (s.cell s.pc = 2 ∧ f = fun a b => a * b) →
      stepTrace Config.core s =
        [.read s.pc, .read (s.pc + 1), .read (s.pc + 2), .read (s.pc + 3), .read (s.cell (s.pc + 1)),
          .read (s.cell (s.pc + 2)),
          .write (s.cell (s.pc + 3)) (f (s.cell (s.cell (s.pc + 1))) (s.cell (s.cell (s.pc + 2))))]) ∧
    (s.cell s.pc = 99 → stepTrace Config.core s = [.read s.pc, .read 0])

/-- R92: a step that fails with OutOfBounds(a) ends its trace at the access of `a`, and every read before it was valid;
one that fails otherwise has made valid reads only and no write. -/
def Obligations.TraceOfAFailingStep : Prop :=
  ∀ s t : State, s.status = .running → step s = .next t → t.status = .failed →
    (t.cause = .outOfBounds → ∃ done : List Nat, (∀ a ∈ done, a < s.len) ∧
      (stepTrace Config.core s = done.map .read ++ [.read t.info] ∨
        ∃ v, stepTrace Config.core s = done.map .read ++ [.write t.info v])) ∧
    (t.cause ≠ .outOfBounds → ∃ done : List Nat, (∀ a ∈ done, a < s.len) ∧
      stepTrace Config.core s = done.map .read)

/-- R43, R47, R91: a step learns nothing of memory but the cells its trace reads. Two states with the same registers that
agree on those cells take steps with the same registers after them and the same accesses, and write the same values:
every cell is either left alone in both or equal in both. In a terminal state the step answers the state itself
(notes/assumptions/8.md). -/
def Obligations.StepReadsOnlyItsTrace : Prop :=
  ∀ s t : State, SameRegisters s t → (∀ a, Access.read a ∈ stepTrace Config.core s → s.cell a = t.cell a) →
    stepTrace Config.core s = stepTrace Config.core t ∧
    ∃ s' t', step s = .next s' ∧ step t = .next t' ∧ SameRegisters s' t' ∧
      ∀ a, s'.cell a = t'.cell a ∨ (s'.cell a = s.cell a ∧ t'.cell a = t.cell a)

/-! ### Invariants and whole runs -/

/-- The state after reset meets the invariant. Reset is the launch of the empty image, which is the model's choice
(notes/assumptions/6.md). -/
def Obligations.ResetMeetsTheInvariant : Prop := Inv Config.core State.reset

/-- Every launch establishes the invariant, at every XLEN and MEMCAP. -/
def Obligations.LaunchEstablishesTheInvariant : Prop :=
  ∀ (p : Params) (img : List Nat) (s : State), launch p img = .next s → Inv p s

/-- Every step of the core keeps the invariant, from every state that meets it. -/
def Obligations.StepKeepsTheInvariant : Prop :=
  ∀ s t : State, Inv Config.core s → step s = .next t → Inv Config.core t

/-- The same for the machine of every XLEN and MEMCAP, unbounded cells among them (R5, R6). -/
def Obligations.AnyWidthStepKeepsTheInvariant : Prop :=
  ∀ (p : Params) (s t : State), Inv p s → stepAt p s = .next t → Inv p t

/-- R5, R22, R24, R28, R29, R23 (e): in every state of the invariant each cell, PC, INFO and RESULT holds a value of XLEN
bits, and PC + 4 does not pass the top of the address space. The last clause is the model's choice (notes/assumptions/4.md,
DESIGN CHOICE): R24 gives no value to a cell at or beyond LEN, and in the model no such cell is listed, so `State.cell`
gives 0 for it; no access of the machine reads it. -/
def Obligations.RegistersFitTheirWidths : Prop :=
  ∀ s : State, Inv Config.core s →
    (∀ a, s.cell a < 2 ^ Config.xlen) ∧ s.pc < 2 ^ Config.xlen ∧
    (s.pc < s.len → s.pc + 4 ≤ 2 ^ Config.xlen - 1) ∧ s.info < 2 ^ Config.xlen ∧
    s.result < 2 ^ Config.xlen ∧ (∀ a, s.len ≤ a → s.cell a = 0)

/-- R23: PC in every state of a launched run: a multiple of 4, at most LEN, 4 times the number of instructions completed,
never past the top of the address space, and moved on by exactly 4 by a completed instruction and by nothing else. Steps
counted past the end of the run repeat its terminal state (notes/assumptions/8.md) and add no state. -/
def Obligations.PcInvariantsOfARun : Prop :=
  ∀ (img : List Nat) (k : Nat) (s t : State), launch Config.core img = .next s → runAt Config.core k s = .next t →
    4 ∣ t.pc ∧ t.pc ≤ t.len ∧ t.pc = 4 * completedSteps Config.core k s ∧
    (t.pc < t.len → t.pc + 4 ≤ 2 ^ Config.xlen - 1) ∧
    ∀ u, step t = .next u → (u.pc = t.pc + 4 ∧ t.status = .running ∧ u.status = .running) ∨
      (u.pc = t.pc ∧ u.status ≠ .running)

/-- R90: from every state at most floor((LEN − PC) / 4) + 1 steps reach a terminal state (the difference is 0 where PC
lies beyond LEN, and one step fails there), so a launched run takes at most floor(LEN / 4) + 1, at most floor(LEN / 4) of them completing an ADD or MULTIPLY. The
bound is reached: the run of `[1,0,0,0,99]` is still Running after one step. That a run of exactly that many steps answers
a state rests on the model's choice that a terminal state answers itself (notes/assumptions/8.md, DESIGN CHOICE). -/
def Obligations.EveryRunEndsWithinTheBound : Prop :=
  (∀ s : State,
    ∃ t : State, Host.Core.run core ((s.len - s.pc) / 4 + 1) s = .next t ∧ t.status ≠ .running) ∧
  (∀ (img : List Nat) (s : State), launch Config.core img = .next s →
    (∃ t : State, Host.Core.run core (img.length / 4 + 1) s = .next t ∧ t.status ≠ .running) ∧
    ∀ k, completedSteps Config.core k s ≤ img.length / 4) ∧
  ∃ t : State, Host.Core.run core 1 (State.ofImage [1, 0, 0, 0, 99]) = .next t ∧ t.status = .running

/-- R89, R120, R135: every admissible image has an outcome, success with the value of cell 0 and a 99 under PC, or failure
with the record of the instruction under PC; there is no third. `execute` takes as many steps as the bound of R166, and
rests on the model's choice that a terminal state answers itself (notes/assumptions/8.md, DESIGN CHOICE). -/
def Obligations.EveryRunHasAnOutcome : Prop :=
  ∀ img : List Nat, admissible Config.core img = true → ∃ t : State, execute Config.core img = .next t ∧
    (t.outcome = some (.success (t.cell 0)) ∧ t.pc < t.len ∧ t.cell t.pc = 99 ∨
      ∃ e, t.outcome = some (.failure e.cause e.info) ∧ firstFailure Config.core t = some e)

/-- R103, R5, as an invariant of the two machines side by side: each step of a machine of bounded cells, whatever its XLEN
and MEMCAP, and of the unbounded machine keeps them in the same state, or leaves the bounded one Failed with
ArithmeticOverflow. From one state, a step that does not overflow is the unbounded machine's step. That a state which has
overflowed stays so rests on the model's choice that a terminal state answers itself (notes/assumptions/8.md). -/
def Obligations.StepKeepsUnboundedAgreement : Prop :=
  ∀ (p : Params) (s u t v : State), s = u ∨ Overflowed s → stepAt p s = .next t → stepAt Config.unbounded u = .next v →
    t = v ∨ Overflowed t

/-- R23 (a) to (d), as an invariant with the count carried along: if PC is 4 times the number of instructions completed and
at most LEN, so it is after a step, the count one higher exactly when the step completes an instruction and ends in Running
(R88). In a terminal state the step answers the state itself (notes/assumptions/8.md), and the count stays. -/
def Obligations.StepKeepsThePcCount : Prop :=
  ∀ (n : Nat) (s t : State), PcCounts n s → step s = .next t →
    PcCounts (if t.status = .running then n + 1 else n) t

/-- R103, R5: a run of the core that does not fail with ArithmeticOverflow is, state for state, the run of the source's
unbounded machine on the same image. -/
def Obligations.RunsAreThoseOfUnboundedIntegers : Prop :=
  ∀ (p : Params) (img : List Nat) (k : Nat) (s t : State), launch p img = .next s → runAt p k s = .next t →
    t.cause ≠ .arithmeticOverflow → launch Config.unbounded img = .next s ∧ runAt Config.unbounded k s = .next t

/-! ### The search driver (outside the CORE, recorded by the spec) -/

/-- R156: the scan visits exactly the pairs of the half-open grid, each once, row-major: noun outer, verb inner. -/
def Obligations.ScanOrderIsRowMajor : Prop :=
  ∀ N V : Nat, (∀ n v, (n, v) ∈ scanOrder N V ↔ n < N ∧ v < V) ∧
    (scanOrder N V).Pairwise fun q q' => q.1 < q'.1 ∨ q.1 = q'.1 ∧ q.2 < q'.2

/-- R157: the image launched for a pair is the initial image with cell 1 replaced by the noun and cell 2 by the verb. -/
def Obligations.PokeReplacesCellsOneAndTwo : Prop :=
  ∀ (img : List Nat) (n v : Nat), 3 ≤ img.length →
    ∃ out, poke img n v = .ok out ∧ out.length = img.length ∧ out[1]? = some n ∧ out[2]? = some v ∧
      ∀ k, k ≠ 1 → k ≠ 2 → out[k]? = img[k]?

/-- R161: on an image of fewer than 3 cells the poke fails before any launch, with OutOfBounds(1) for length 0 or 1 and
OutOfBounds(2) for length 2, and the pair counts as a failed run. -/
def Obligations.ShortImagePokeFails : Prop :=
  ∀ (img : List Nat) (n v : Nat), img.length < 3 →
    runPair Config.core img n v = .failed .outOfBounds (if img.length = 2 then 2 else 1)

/-- R158, R162 and the source's search property (S8), both ways. A search that finds reports `100*noun + verb` of a pair of
the grid whose run gave the target, and no pair earlier in the scan order matched. A matching pair after pairs the scan
passes over is found and reported. On an admissible image with both bounds at most `2^XLEN`, so that no poked image is
refused, any matching pair with no failing pair before it, and under `skip_pair` any matching pair at all, makes the search
find. -/
def Obligations.SearchFindsTheFirstMatch : Prop :=
  ∀ (cfg : SearchConfig) (img : List Nat),
    (∀ rep, search Config.core cfg img = .found rep →
      ∃ before n v after, scanOrder cfg.nounBound.toNat cfg.verbBound.toNat = before ++ (n, v) :: after ∧
        rep = 100 * n + v ∧ Matches Config.core cfg img (n, v) ∧ ∀ q ∈ before, ¬ Matches Config.core cfg img q) ∧
    ∀ before n v after, scanOrder cfg.nounBound.toNat cfg.verbBound.toNat = before ++ (n, v) :: after →
      Matches Config.core cfg img (n, v) →
      ((∀ q ∈ before, PassedOver Config.core cfg img q) → search Config.core cfg img = .found (100 * n + v)) ∧
      (admissible Config.core img = true → cfg.nounBound ≤ 2 ^ Config.xlen → cfg.verbBound ≤ 2 ^ Config.xlen →
        (cfg.onRunFailure = .skipPair ∨ ∀ q ∈ before, ∀ c i, runPair Config.core img q.1 q.2 ≠ .failed c i) →
        ∃ rep, search Config.core cfg img = .found rep)

/-- R159, R160: how a search that finds nothing ends, whatever the image. It is "not found" exactly when the scan passes over
every pair of the grid, and aborted exactly when the policy is `abort_search` and a pair fails after pairs passed over,
with that pair's failure. On an admissible image with both bounds at most `2^XLEN` no poked image is refused; then
"not found" means under `skip_pair` exactly that no pair matches, and under `abort_search` exactly that no pair matches and
none fails. The clause on `imageRefused` is the model's choice (notes/assumptions/13.md, DESIGN CHOICE). -/
def Obligations.SearchEndsByItsPolicy : Prop :=
  ∀ (cfg : SearchConfig) (img : List Nat),
    (search Config.core cfg img = .notFound ↔
      ∀ q ∈ scanOrder cfg.nounBound.toNat cfg.verbBound.toNat, PassedOver Config.core cfg img q) ∧
    (∀ c i, search Config.core cfg img = .aborted c i ↔ cfg.onRunFailure = .abortSearch ∧
      ∃ before n v after, scanOrder cfg.nounBound.toNat cfg.verbBound.toNat = before ++ (n, v) :: after ∧
        runPair Config.core img n v = .failed c i ∧ ∀ q ∈ before, PassedOver Config.core cfg img q ∧
          ¬ Matches Config.core cfg img q ∧ ∀ c' i', runPair Config.core img q.1 q.2 ≠ .failed c' i') ∧
    (search Config.core cfg img = .imageRefused ↔
      ∃ before n v after, scanOrder cfg.nounBound.toNat cfg.verbBound.toNat = before ++ (n, v) :: after ∧
        runPair Config.core img n v = .noRun ∧ ∀ q ∈ before, PassedOver Config.core cfg img q) ∧
    (admissible Config.core img = true → cfg.nounBound ≤ 2 ^ Config.xlen → cfg.verbBound ≤ 2 ^ Config.xlen →
      search Config.core cfg img ≠ .imageRefused ∧
      (cfg.onRunFailure = .skipPair → (search Config.core cfg img = .notFound ↔
        ∀ q ∈ scanOrder cfg.nounBound.toNat cfg.verbBound.toNat, ¬ Matches Config.core cfg img q)) ∧
      (cfg.onRunFailure = .abortSearch → (search Config.core cfg img = .notFound ↔
        ∀ q ∈ scanOrder cfg.nounBound.toNat cfg.verbBound.toNat, ¬ Matches Config.core cfg img q ∧
          ∀ c i, runPair Config.core img q.1 q.2 ≠ .failed c i)))
end

