-- ==== Sys2Proof/Laws/State.lean ====
section
/-! SUPPORT. Laws about the state: one lemma per field per update, each true by rfl. -/

namespace Sys2Proof.Machine

variable (s : State)

@[simp] theorem setCell_mem (a : Nat) (v : Nat) : (s.setCell a v).mem = s.mem.write a v := rfl
@[simp] theorem setCell_len (a : Nat) (v : Nat) : (s.setCell a v).len = s.len := rfl
@[simp] theorem setCell_pc (a : Nat) (v : Nat) : (s.setCell a v).pc = s.pc := rfl
@[simp] theorem setCell_status (a : Nat) (v : Nat) : (s.setCell a v).status = s.status := rfl
@[simp] theorem setCell_cause (a : Nat) (v : Nat) : (s.setCell a v).cause = s.cause := rfl
@[simp] theorem setCell_info (a : Nat) (v : Nat) : (s.setCell a v).info = s.info := rfl
@[simp] theorem setCell_result (a : Nat) (v : Nat) : (s.setCell a v).result = s.result := rfl

@[simp] theorem raise_mem (e : Failure) : (raise e s).mem = s.mem := rfl
@[simp] theorem raise_len (e : Failure) : (raise e s).len = s.len := rfl
@[simp] theorem raise_pc (e : Failure) : (raise e s).pc = s.pc := rfl
@[simp] theorem raise_status (e : Failure) : (raise e s).status = .failed := rfl
@[simp] theorem raise_cause (e : Failure) : (raise e s).cause = e.cause := rfl
@[simp] theorem raise_info (e : Failure) : (raise e s).info = e.info := rfl
@[simp] theorem raise_result (e : Failure) : (raise e s).result = s.result := rfl
@[simp] theorem raise_cell (e : Failure) (b : Nat) : (raise e s).cell b = s.cell b := rfl

@[simp] theorem halt_mem (v : Nat) : (halt v s).mem = s.mem := rfl
@[simp] theorem halt_len (v : Nat) : (halt v s).len = s.len := rfl
@[simp] theorem halt_pc (v : Nat) : (halt v s).pc = s.pc := rfl
@[simp] theorem halt_status (v : Nat) : (halt v s).status = .halted := rfl
@[simp] theorem halt_cause (v : Nat) : (halt v s).cause = s.cause := rfl
@[simp] theorem halt_info (v : Nat) : (halt v s).info = s.info := rfl
@[simp] theorem halt_result (v : Nat) : (halt v s).result = v := rfl
@[simp] theorem halt_cell (v : Nat) (b : Nat) : (halt v s).cell b = s.cell b := rfl

@[simp] theorem advance_mem : (advance s).mem = s.mem := rfl
@[simp] theorem advance_len : (advance s).len = s.len := rfl
@[simp] theorem advance_pc : (advance s).pc = s.pc + 4 := rfl
@[simp] theorem advance_status : (advance s).status = s.status := rfl
@[simp] theorem advance_cause : (advance s).cause = s.cause := rfl
@[simp] theorem advance_info : (advance s).info = s.info := rfl
@[simp] theorem advance_result : (advance s).result = s.result := rfl
@[simp] theorem advance_cell (b : Nat) : (advance s).cell b = s.cell b := rfl

@[simp] theorem ofImage_mem (img : List Nat) : (State.ofImage img).mem = Memory.ofImage img := rfl
@[simp] theorem ofImage_len (img : List Nat) : (State.ofImage img).len = img.length := rfl
@[simp] theorem ofImage_pc (img : List Nat) : (State.ofImage img).pc = 0 := rfl
@[simp] theorem ofImage_status (img : List Nat) : (State.ofImage img).status = .running := rfl
@[simp] theorem ofImage_cause (img : List Nat) : (State.ofImage img).cause = .none := rfl
@[simp] theorem ofImage_info (img : List Nat) : (State.ofImage img).info = 0 := rfl
@[simp] theorem ofImage_result (img : List Nat) : (State.ofImage img).result = 0 := rfl

/-- The state after reset is the launch of the empty image. -/
theorem reset_eq_ofImage : State.reset = State.ofImage [] := rfl

end Sys2Proof.Machine
end

