-- ==== Sys2Proof/Laws/Memory.lean ====
section
/-! SUPPORT. Laws about memory: read after write, the canonical form is kept, and the memory of an image. -/

namespace Sys2Proof.Machine

@[simp] theorem Memory.read_nil (a : Nat) : Memory.read [] a = 0 := rfl

theorem Memory.read_cons (b : Nat) (v : Nat) (m : Memory) (a : Nat) :
    Memory.read ((b, v) :: m) a = if b = a then v else Memory.read m a := rfl

theorem Memory.read_eq_zero_of_unlisted (m : Memory) (a : Nat) (h : ∀ c ∈ m, c.1 ≠ a) : Memory.read m a = 0 := by
  induction m with
  | nil => rfl
  | cons c m ih =>
    obtain ⟨b, v⟩ := c
    have hb : b ≠ a := h (b, v) (by simp)
    simp [Memory.read_cons, hb, ih fun c hc => h c (by simp [hc])]

/-- A cell reads 0 or a listed value. -/
theorem Memory.read_zero_or_listed (m : Memory) (a : Nat) : Memory.read m a = 0 ∨ (a, Memory.read m a) ∈ m := by
  induction m with
  | nil => exact .inl rfl
  | cons c m ih =>
    obtain ⟨b, v⟩ := c
    by_cases hb : b = a
    · subst hb; simp [Memory.read_cons]
    · rw [Memory.read_cons, if_neg hb]
      exact ih.imp_right (List.mem_cons_of_mem _)

@[simp] theorem Memory.read_erase_same (m : Memory) (a : Nat) : Memory.read (Memory.erase m a) a = 0 :=
  Memory.read_eq_zero_of_unlisted _ _ fun c hc => by simpa using (List.mem_filter.mp hc).2

theorem Memory.read_erase_other (m : Memory) {a b : Nat} (h : b ≠ a) :
    Memory.read (Memory.erase m a) b = Memory.read m b := by
  induction m with
  | nil => rfl
  | cons c m ih =>
    obtain ⟨k, v⟩ := c
    by_cases hk : k = a
    · subst hk
      have : Memory.erase ((k, v) :: m) k = Memory.erase m k := by simp [Memory.erase]
      rw [this, ih, Memory.read_cons, if_neg (Ne.symm h)]
    · have : Memory.erase ((k, v) :: m) a = (k, v) :: Memory.erase m a := by simp [Memory.erase, hk]
      rw [this, Memory.read_cons, Memory.read_cons, ih]

theorem Memory.read_insert (m : Memory) (a b : Nat) (v : Nat) (h : ∀ c ∈ m, c.1 ≠ a) :
    Memory.read (Memory.insert m a v) b = if a = b then v else Memory.read m b := by
  induction m with
  | nil => rfl
  | cons c m ih =>
    obtain ⟨k, w⟩ := c
    have hk : k ≠ a := h (k, w) (by simp)
    have ih := ih fun c hc => h c (by simp [hc])
    unfold Memory.insert
    split
    · simp [Memory.read_cons]
    · rw [Memory.read_cons, ih, Memory.read_cons]
      by_cases hkb : k = b
      · subst hkb; simp [Ne.symm hk]
      · simp [hkb]

theorem Memory.mem_erase (m : Memory) (a : Nat) (c : Nat × Nat) : c ∈ Memory.erase m a ↔ c ∈ m ∧ c.1 ≠ a := by
  simp [Memory.erase]

theorem Memory.mem_insert (m : Memory) (a : Nat) (v : Nat) (c : Nat × Nat) :
    c ∈ Memory.insert m a v ↔ c = (a, v) ∨ c ∈ m := by
  induction m with
  | nil => simp [Memory.insert]
  | cons d m ih =>
    unfold Memory.insert
    split
    · simp
    · simp only [List.mem_cons, ih]; tauto

/-- R42: "After a successful write, `MEM[a] = v`". -/
@[simp] theorem Memory.read_write_same (m : Memory) (a : Nat) (v : Nat) :
    Memory.read (Memory.write m a v) a = v := by
  unfold Memory.write
  split
  · next h => simp [h]
  · rw [Memory.read_insert _ _ _ _ fun c hc => ((Memory.mem_erase m a c).mp hc).2, if_pos rfl]

/-- R42: "`MEM[j]` is unchanged for every j ≠ a". -/
theorem Memory.read_write_other (m : Memory) {a b : Nat} (v : Nat) (h : b ≠ a) :
    Memory.read (Memory.write m a v) b = Memory.read m b := by
  unfold Memory.write
  split
  · exact Memory.read_erase_other m h
  · rw [Memory.read_insert _ _ _ _ fun c hc => ((Memory.mem_erase m a c).mp hc).2, if_neg (Ne.symm h),
      Memory.read_erase_other m h]

theorem Memory.read_write (m : Memory) (a b : Nat) (v : Nat) :
    Memory.read (Memory.write m a v) b = if b = a then v else Memory.read m b := by
  split
  · next h => rw [h, Memory.read_write_same]
  · next h => exact Memory.read_write_other m v h

/-- What a write lists: the pair written, or a pair listed before. -/
theorem Memory.mem_write (m : Memory) (a : Nat) (v : Nat) {c : Nat × Nat} (h : c ∈ Memory.write m a v) :
    c = (a, v) ∨ c ∈ m := by
  unfold Memory.write at h
  split at h
  · exact .inr ((Memory.mem_erase m a c).mp h).1
  · exact ((Memory.mem_insert _ _ _ c).mp h).imp_right fun h => ((Memory.mem_erase m a c).mp h).1

theorem Memory.wf_erase {m : Memory} (a : Nat) (h : m.wf) : (Memory.erase m a).wf :=
  ⟨h.1.sublist (List.filter_sublist.map _), fun c hc => h.2 c ((Memory.mem_erase m a c).mp hc).1⟩

theorem Memory.wf_insert {m : Memory} {a : Nat} {v : Nat} (h : m.wf) (hv : v ≠ 0) (ha : ∀ c ∈ m, c.1 ≠ a) :
    (Memory.insert m a v).wf := by
  refine ⟨?_, fun c hc => ?_⟩
  · obtain ⟨h, -⟩ := h
    induction m with
    | nil => simp [Memory.insert]
    | cons d m ih =>
      obtain ⟨b, w⟩ := d
      have hb : b ≠ a := ha (b, w) (by simp)
      rw [List.map_cons, List.pairwise_cons] at h
      unfold Memory.insert
      split
      · next hab =>
        simp only [List.map_cons, List.pairwise_cons, List.mem_cons, List.mem_map] at h ⊢
        refine ⟨?_, h⟩
        rintro x (rfl | ⟨c, hc, rfl⟩)
        · exact hab
        · exact hab.trans (h.1 _ ⟨c, hc, rfl⟩)
      · next hab =>
        rw [List.map_cons, List.pairwise_cons]
        refine ⟨fun x hx => ?_, ih (fun c hc => ha c (by simp [hc])) h.2⟩
        obtain ⟨c, hc, rfl⟩ := List.mem_map.mp hx
        rcases (Memory.mem_insert _ _ _ c).mp hc with rfl | hc
        · show b < a; omega
        · exact h.1 _ (List.mem_map_of_mem hc)
  · rcases (Memory.mem_insert _ _ _ c).mp hc with rfl | hc
    · exact hv
    · exact h.2 c hc

/-- A write keeps the canonical form. -/
theorem Memory.wf_write {m : Memory} (a : Nat) (v : Nat) (h : m.wf) : (Memory.write m a v).wf := by
  unfold Memory.write
  split
  · exact Memory.wf_erase a h
  · next hv => exact Memory.wf_insert (Memory.wf_erase a h) hv fun c hc => ((Memory.mem_erase m a c).mp hc).2

theorem Memory.mem_ofImageFrom {a : Nat} {img : List Nat} {c : Nat × Nat} (h : c ∈ Memory.ofImageFrom a img) :
    a ≤ c.1 ∧ c.1 < a + img.length ∧ c.2 ∈ img ∧ c.2 ≠ 0 := by
  induction img generalizing a with
  | nil => simp [Memory.ofImageFrom] at h
  | cons v vs ih =>
    unfold Memory.ofImageFrom at h
    have tail : c ∈ Memory.ofImageFrom (a + 1) vs →
        a ≤ c.1 ∧ c.1 < a + (v :: vs).length ∧ c.2 ∈ v :: vs ∧ c.2 ≠ 0 := fun h => by
      obtain ⟨h1, h2, h3, h4⟩ := ih h
      refine ⟨by omega, by simp only [List.length_cons]; omega, List.mem_cons_of_mem _ h3, h4⟩
    split at h
    · exact tail h
    · next hv =>
      rcases List.mem_cons.mp h with rfl | h
      · simpa using hv
      · exact tail h

theorem Memory.read_ofImageFrom (a i : Nat) (img : List Nat) :
    Memory.read (Memory.ofImageFrom a img) (a + i) = img.getD i 0 := by
  induction img generalizing a i with
  | nil => rfl
  | cons v vs ih =>
    unfold Memory.ofImageFrom
    cases i with
    | zero =>
      split
      · next hv =>
        rw [Memory.read_eq_zero_of_unlisted _ _ fun c hc => ?_]
        · simpa using hv.symm
        · have := (Memory.mem_ofImageFrom hc).1; omega
      · simp [Memory.read_cons]
    | succ i =>
      have key : Memory.read (Memory.ofImageFrom (a + 1) vs) (a + (i + 1)) = vs.getD i 0 := by
        rw [← ih (a + 1) i]; congr 1; omega
      split
      · simpa using key
      · rw [Memory.read_cons, if_neg (by omega)]; simpa using key

/-- R34: `MEM[i] = img[i]`; an address beyond the image reads as unlisted. -/
theorem Memory.read_ofImage (img : List Nat) (i : Nat) : Memory.read (Memory.ofImage img) i = img.getD i 0 := by
  simpa [Memory.ofImage] using Memory.read_ofImageFrom 0 i img

/-- The memory of an image is canonical. -/
theorem Memory.wf_ofImageFrom (a : Nat) (img : List Nat) : (Memory.ofImageFrom a img).wf := by
  refine ⟨?_, fun c hc => (Memory.mem_ofImageFrom hc).2.2.2⟩
  induction img generalizing a with
  | nil => simp [Memory.ofImageFrom]
  | cons v vs ih =>
    unfold Memory.ofImageFrom
    split
    · exact ih _
    · rw [List.map_cons, List.pairwise_cons]
      refine ⟨fun x hx => ?_, ih _⟩
      obtain ⟨c, hc, rfl⟩ := List.mem_map.mp hx
      exact (Memory.mem_ofImageFrom hc).1

theorem reset_memory_wf : State.reset.mem.wf := by decide

@[simp] theorem setCell_cell_same (s : State) (a : Nat) (v : Nat) : (s.setCell a v).cell a = v :=
  Memory.read_write_same s.mem a v

theorem setCell_cell_other (s : State) {a b : Nat} (v : Nat) (h : b ≠ a) : (s.setCell a v).cell b = s.cell b :=
  Memory.read_write_other s.mem v h

theorem setCell_cell (s : State) (a b : Nat) (v : Nat) :
    (s.setCell a v).cell b = if b = a then v else s.cell b := Memory.read_write s.mem a b v

theorem ofImage_cell (img : List Nat) (i : Nat) : (State.ofImage img).cell i = img.getD i 0 :=
  Memory.read_ofImage img i

end Sys2Proof.Machine
end

