-- ==== Sys2Proof/Laws/Ops.lean ====
section
/-! SUPPORT. Laws about the shared operations: everything each of them can do, said once. -/

namespace Sys2Proof.Machine

/-! ### The two primitives -/

theorem memRead_of_lt {s : State} {a : Nat} (h : a < s.len) : memRead s a = .ok (s.cell a) := by
  simp [memRead, h]

theorem memRead_of_le {s : State} {a : Nat} (h : s.len ≤ a) : memRead s a = .error (.outOfBounds a) := by
  simp [memRead, h]

theorem memRead_ok_iff {s : State} {a : Nat} {v : Nat} : memRead s a = .ok v ↔ a < s.len ∧ v = s.cell a := by
  unfold memRead
  split <;> simp <;> omega

theorem memWrite_of_lt {s : State} {a : Nat} (v : Nat) (h : a < s.len) :
    memWrite s a v = .ok (s.setCell a v) := by
  simp [memWrite, h]

theorem memWrite_of_le {s : State} {a : Nat} (v : Nat) (h : s.len ≤ a) :
    memWrite s a v = .error (.outOfBounds a) := by
  simp [memWrite, h]

theorem checkRange_of_fits {p : Params} {r : Nat} (pc : Nat) (h : p.fits r = true) :
    checkRange p pc r = .ok r := by
  simp [checkRange, h]

theorem checkRange_of_not_fits {p : Params} {r : Nat} (pc : Nat) (h : p.fits r = false) :
    checkRange p pc r = .error (.arithmeticOverflow pc) := by
  simp [checkRange, h]

/-- A value fits a cell of the core exactly when it is below `2^XLEN`. -/
@[simp] theorem core_fits (v : Nat) : Config.core.fits v = decide (v < 2 ^ Config.xlen) := rfl

/-- `2^XLEN` of the core as a number. -/
theorem two_pow_xlen : 2 ^ Config.xlen = 18446744073709551616 := rfl

/-- An image is admissible for the core exactly as R151 says. -/
theorem admissible_core_iff (img : List Nat) :
    admissible Config.core img = true ↔ img.length ≤ Config.memcap ∧ ∀ v ∈ img, v < 2 ^ Config.xlen := by
  simp [admissible, Params.holds, Config.core, Params.fits]

theorem launch_of_admissible {p : Params} {img : List Nat} (h : admissible p img = true) :
    launch p img = .next (State.ofImage img) := by
  simp [launch, h]

theorem launch_of_not_admissible {p : Params} {img : List Nat} (h : admissible p img = false) :
    launch p img = .refused .inadmissibleImage := by
  simp [launch, h]

theorem launch_eq_next_iff {p : Params} {img : List Nat} {s : State} :
    launch p img = .next s ↔ admissible p img = true ∧ s = State.ofImage img := by
  cases h : admissible p img with
  | true => simp [launch_of_admissible h, eq_comm]
  | false => simp [launch_of_not_admissible h]

@[simp] theorem unbounded_fits (v : Nat) : Config.unbounded.fits v = true := rfl

/-! ### How a step ends -/

@[simp] theorem settle_ok (s t : State) : settle s (.ok t) = .next t := rfl

@[simp] theorem settle_error (s : State) (e : Failure) : settle s (.error e) = .next (raise e s) := rfl

/-- A meaning always answers a next state. -/
theorem settle_next (s : State) (r : Except Failure State) : ∃ t, settle s r = .next t := by
  cases r with
  | ok t => exact ⟨t, rfl⟩
  | error e => exact ⟨raise e s, rfl⟩

/-! ### `ThreeAddress` -/

/-- Everything `ThreeAddress` can do after the operand cells are read, in the order of its checks. -/
theorem threeAddress_eq (p : Params) (f : Nat → Nat → Nat) (a b d : Nat) (s : State) :
    threeAddress p f a b d s =
      if s.len ≤ a then .error (.outOfBounds a)
      else if s.len ≤ b then .error (.outOfBounds b)
      else if p.fits (f (s.cell a) (s.cell b)) = false then .error (.arithmeticOverflow s.pc)
      else if s.len ≤ d then .error (.outOfBounds d)
      else .ok (advance (s.setCell d (f (s.cell a) (s.cell b)))) := by
  by_cases ha : s.len ≤ a
  · simp [threeAddress, readSources, memRead_of_le ha, bind, Except.bind, ha]
  by_cases hb : s.len ≤ b
  · simp [threeAddress, readSources, memRead_of_lt (Nat.lt_of_not_le ha), memRead_of_le hb, bind, Except.bind, ha, hb]
  cases hr : p.fits (f (s.cell a) (s.cell b)) with
  | false =>
    simp [threeAddress, readSources, memRead_of_lt (Nat.lt_of_not_le ha), memRead_of_lt (Nat.lt_of_not_le hb),
      checkRange_of_not_fits s.pc hr, bind, Except.bind, pure, Except.pure, ha, hb]
  | true =>
    by_cases hd : s.len ≤ d
    · simp [threeAddress, readSources, memRead_of_lt (Nat.lt_of_not_le ha), memRead_of_lt (Nat.lt_of_not_le hb),
        checkRange_of_fits s.pc hr, memWrite_of_le _ hd, bind, Except.bind, pure, Except.pure, ha, hb, hd]
    · simp [threeAddress, readSources, memRead_of_lt (Nat.lt_of_not_le ha), memRead_of_lt (Nat.lt_of_not_le hb),
        checkRange_of_fits s.pc hr, memWrite_of_lt _ (Nat.lt_of_not_le hd), bind, Except.bind, pure, Except.pure,
        ha, hb, hd]

/-! ### Fetch -/

/-- A format Q fetch: the operand cells in order, or the first that lies beyond LEN. -/
theorem readOperands_operandCell (s : State) (mk : Nat → Nat → Nat → Instr) :
    readOperands (operandCell s) mk =
      if s.len ≤ s.pc + 1 then .error (.outOfBounds (s.pc + 1))
      else if s.len ≤ s.pc + 2 then .error (.outOfBounds (s.pc + 2))
      else if s.len ≤ s.pc + 3 then .error (.outOfBounds (s.pc + 3))
      else .ok (mk (s.cell (s.pc + 1)) (s.cell (s.pc + 2)) (s.cell (s.pc + 3))) := by
  by_cases h1 : s.len ≤ s.pc + 1
  · simp [readOperands, operandCell, memRead_of_le h1, bind, Except.bind, h1]
  by_cases h2 : s.len ≤ s.pc + 2
  · simp [readOperands, operandCell, memRead_of_lt (Nat.lt_of_not_le h1), memRead_of_le h2, bind, Except.bind, h1, h2]
  by_cases h3 : s.len ≤ s.pc + 3
  · simp [readOperands, operandCell, memRead_of_lt (Nat.lt_of_not_le h1), memRead_of_lt (Nat.lt_of_not_le h2),
      memRead_of_le h3, bind, Except.bind, h1, h2, h3]
  · simp [readOperands, operandCell, memRead_of_lt (Nat.lt_of_not_le h1), memRead_of_lt (Nat.lt_of_not_le h2),
      memRead_of_lt (Nat.lt_of_not_le h3), bind, Except.bind, pure, Except.pure, h1, h2, h3]

/-- A fetch at or beyond LEN fails on PC (R83). -/
theorem fetch_of_le {s : State} (h : s.len ≤ s.pc) : fetch s = .error (.outOfBounds s.pc) := by
  simp [fetch, decodeFrom, operandCell, memRead_of_le h, bind, Except.bind]

/-- A fetch within LEN: decode of the cell at PC, then the operand cells. -/
theorem fetch_of_lt {s : State} (h : s.pc < s.len) :
    fetch s =
      match decodeOpcode (s.cell s.pc) with
      | some .add => readOperands (operandCell s) .add
      | some .multiply => readOperands (operandCell s) .multiply
      | some .stop => .ok .stop
      | none => .error (.unknownOpcode (s.cell s.pc)) := by
  simp only [fetch, decodeFrom, operandCell, Nat.add_zero, memRead_of_lt h, bind, Except.bind]
  rfl

/-! ### The sequencer -/

theorem sequence_of_terminal (m : Instr → State → Host.Outcome State Fault Refusal) {s : State}
    (h : s.status ≠ .running) : sequence m s = .next s := by
  unfold sequence
  cases hs : s.status <;> simp_all

theorem sequence_of_running (m : Instr → State → Host.Outcome State Fault Refusal) {s : State}
    (h : s.status = .running) :
    sequence m s =
      match fetch s with
      | .ok i => m i s
      | .error e => .next (raise e s) := by
  cases hf : fetch s <;> simp [sequence, h, hf]

/-- The core's meanings are those of the parametric machine at the core's parameters. -/
theorem execAt_core : execAt Config.core = exec := by
  funext i s
  cases i <;> rfl

theorem stepAt_core : stepAt Config.core = step := by
  funext s
  simp [stepAt, step, execAt_core]

/-! ### STOP -/

theorem execStop_of_lt {s : State} (h : 0 < s.len) : execStop s = .next (halt (s.cell 0) s) := by
  simp [execStop, memRead_of_lt h, bind, Except.bind, pure, Except.pure]

theorem execStop_of_empty {s : State} (h : s.len = 0) : execStop s = .next (raise (.outOfBounds 0) s) := by
  simp [execStop, memRead_of_le (Nat.le_of_eq h), bind, Except.bind]

end Sys2Proof.Machine
end

