-- ==== Sys2Proof/Laws/Step.lean ====
section
/-! SUPPORT. Laws about the step: what each meaning answers, and everything one step can do. -/

namespace Sys2Proof.Machine

/-! ### Decode -/

theorem decodeOpcode_eq_some_iff (v : Nat) (op : Opcode) : decodeOpcode v = some op ↔ v = op.value := by
  unfold decodeOpcode
  cases op <;> split_ifs <;> simp_all [Opcode.value]

theorem decodeOpcode_of_unknown {v : Nat} (h1 : v ≠ 1) (h2 : v ≠ 2) (h99 : v ≠ 99) : decodeOpcode v = none := by
  simp [decodeOpcode, h1, h2, h99]

@[simp] theorem decodeOpcode_one : decodeOpcode 1 = some .add := rfl
@[simp] theorem decodeOpcode_two : decodeOpcode 2 = some .multiply := rfl
@[simp] theorem decodeOpcode_ninetyNine : decodeOpcode 99 = some .stop := rfl

/-! ### Placing an instruction -/

@[simp] theorem placeCells_pc (s : State) (a : Nat) (cells : List Nat) : (placeCells s a cells).pc = s.pc := by
  induction cells generalizing s a with
  | nil => rfl
  | cons v vs ih => exact ih _ _

@[simp] theorem placeInstruction_pc (s : State) (cells : List Nat) : (placeInstruction s cells).pc = s.pc :=
  placeCells_pc s s.pc cells

@[simp] theorem placeInstruction_status (s : State) (cells : List Nat) :
    (placeInstruction s cells).status = .running := rfl

@[simp] theorem placeInstruction_len (s : State) (cells : List Nat) :
    (placeInstruction s cells).len = max s.len (s.pc + cells.length) := rfl

@[simp] theorem placeInstruction_cell (s : State) (cells : List Nat) (b : Nat) :
    (placeInstruction s cells).cell b = (placeCells s s.pc cells).cell b := rfl

/-- A cell below the placed ones is left alone. -/
theorem placeCells_cell_before (s : State) {a b : Nat} (cells : List Nat) (h : b < a) :
    (placeCells s a cells).cell b = s.cell b := by
  induction cells generalizing s a with
  | nil => rfl
  | cons v vs ih => rw [placeCells, ih _ (by omega), setCell_cell_other s v (by omega)]

/-- The placed cells read as placed. -/
theorem placeCells_cell (s : State) (a : Nat) (cells : List Nat) (k : Nat) (h : k < cells.length) :
    (placeCells s a cells).cell (a + k) = cells[k] := by
  induction cells generalizing s a k with
  | nil => simp at h
  | cons v vs ih =>
    cases k with
    | zero => rw [placeCells, placeCells_cell_before _ _ (by omega)]; simp
    | succ k =>
      have := ih (s.setCell a v) (a + 1) k (by simpa using h)
      rw [placeCells]
      simpa [Nat.add_assoc, Nat.add_comm 1 k] using this

/-! ### What a meaning answers -/

/-- Everything an ADD or MULTIPLY can do once its operand cells are read, as the state it answers. -/
theorem settle_threeAddress (p : Params) (f : Nat → Nat → Nat) (a b d : Nat) (s : State) :
    settle s (threeAddress p f a b d s) = .next (
      if s.len ≤ a then raise (.outOfBounds a) s
      else if s.len ≤ b then raise (.outOfBounds b) s
      else if p.fits (f (s.cell a) (s.cell b)) = false then raise (.arithmeticOverflow s.pc) s
      else if s.len ≤ d then raise (.outOfBounds d) s
      else advance (s.setCell d (f (s.cell a) (s.cell b)))) := by
  rw [threeAddress_eq]
  split_ifs <;> rfl

/-- An instruction always answers a next state: it completes, halts or enters Failed. -/
theorem execAt_next (p : Params) (i : Instr) (s : State) : ∃ t, execAt p i s = .next t := by
  cases i <;> exact settle_next _ _

theorem stepAt_of_terminal (p : Params) {s : State} (h : s.status ≠ .running) : stepAt p s = .next s :=
  sequence_of_terminal _ h

/-- Every state has a next state. -/
theorem stepAt_next (p : Params) (s : State) : ∃ t, stepAt p s = .next t := by
  by_cases h : s.status = .running
  · rw [stepAt, sequence_of_running _ h]
    cases fetch s with
    | ok i => exact execAt_next p i s
    | error e => exact ⟨_, rfl⟩
  · exact ⟨s, stepAt_of_terminal p h⟩

/-! ### A step from Running -/

/-- The step of an ADD or MULTIPLY: the failure its checks meet first, or the one write and `PC + 4`. -/
def arithmeticStep (p : Params) (f : Nat → Nat → Nat) (s : State) : State :=
  match arithmeticFailure p f s with
  | some e => raise e s
  | none => advance (s.setCell (s.cell (s.pc + 3)) (f (s.cell (s.cell (s.pc + 1))) (s.cell (s.cell (s.pc + 2)))))

/-- The two ways an ADD or MULTIPLY ends. -/
theorem arithmeticStep_cases (p : Params) (f : Nat → Nat → Nat) (s : State) :
    (∃ e, arithmeticFailure p f s = some e ∧ arithmeticStep p f s = raise e s) ∨
    (arithmeticFailure p f s = none ∧ arithmeticStep p f s = advance (s.setCell (s.cell (s.pc + 3))
      (f (s.cell (s.cell (s.pc + 1))) (s.cell (s.cell (s.pc + 2)))))) := by
  unfold arithmeticStep
  cases arithmeticFailure p f s with
  | some e => exact .inl ⟨e, rfl, rfl⟩
  | none => exact .inr ⟨rfl, rfl⟩

/-- The operand fetch and the body of R100 together make the checks of R134 in its order. -/
theorem readOperands_then_settle (p : Params) (f : Nat → Nat → Nat) (mk : Nat → Nat → Nat → Instr) (s : State)
    (m : Instr → State → Host.Outcome State Fault Refusal)
    (hm : ∀ a b d, m (mk a b d) s = settle s (threeAddress p f a b d s)) :
    (match readOperands (operandCell s) mk with
      | .ok i => m i s
      | .error e => .next (raise e s)) = .next (arithmeticStep p f s) := by
  rw [readOperands_operandCell]
  simp only [arithmeticStep, arithmeticFailure]
  by_cases h1 : s.len ≤ s.pc + 1
  · simp [h1]
  by_cases h2 : s.len ≤ s.pc + 2
  · simp [h1, h2]
  by_cases h3 : s.len ≤ s.pc + 3
  · simp [h1, h2, h3]
  simp only [h1, h2, h3, if_false, hm, settle_threeAddress]
  by_cases ha : s.len ≤ s.cell (s.pc + 1)
  · simp [ha]
  by_cases hb : s.len ≤ s.cell (s.pc + 2)
  · simp [ha, hb]
  cases hr : p.fits (f (s.cell (s.cell (s.pc + 1))) (s.cell (s.cell (s.pc + 2)))) with
  | false => simp [ha, hb]
  | true =>
    by_cases hd : s.len ≤ s.cell (s.pc + 3)
    · simp [ha, hb, hd]
    · simp [ha, hb, hd]

/-- An ADD under PC: the step is that of its checks and its write. -/
theorem stepAt_add (p : Params) {s : State} (hs : s.status = .running) (hpc : s.pc < s.len) (hop : s.cell s.pc = 1) :
    stepAt p s = .next (arithmeticStep p (fun a b => a + b) s) := by
  rw [stepAt, sequence_of_running _ hs, fetch_of_lt hpc, hop]
  exact readOperands_then_settle p _ .add s (execAt p) fun _ _ _ => rfl

/-- A MULTIPLY under PC. -/
theorem stepAt_multiply (p : Params) {s : State} (hs : s.status = .running) (hpc : s.pc < s.len)
    (hop : s.cell s.pc = 2) : stepAt p s = .next (arithmeticStep p (fun a b => a * b) s) := by
  rw [stepAt, sequence_of_running _ hs, fetch_of_lt hpc, hop]
  exact readOperands_then_settle p _ .multiply s (execAt p) fun _ _ _ => rfl

/-- A STOP under PC. -/
theorem stepAt_stop (p : Params) {s : State} (hs : s.status = .running) (hpc : s.pc < s.len)
    (hop : s.cell s.pc = 99) : stepAt p s = .next (halt (s.cell 0) s) := by
  rw [stepAt, sequence_of_running _ hs, fetch_of_lt hpc, hop]
  exact execStop_of_lt (by omega)

/-- No opcode under PC. -/
theorem stepAt_unknown (p : Params) {s : State} (hs : s.status = .running) (hpc : s.pc < s.len)
    (h1 : s.cell s.pc ≠ 1) (h2 : s.cell s.pc ≠ 2) (h99 : s.cell s.pc ≠ 99) :
    stepAt p s = .next (raise (.unknownOpcode (s.cell s.pc)) s) := by
  rw [stepAt, sequence_of_running _ hs, fetch_of_lt hpc, decodeOpcode_of_unknown h1 h2 h99]

/-- PC at or beyond the end. -/
theorem stepAt_beyond (p : Params) {s : State} (hs : s.status = .running) (hpc : s.len ≤ s.pc) :
    stepAt p s = .next (raise (.outOfBounds s.pc) s) := by
  rw [stepAt, sequence_of_running _ hs, fetch_of_le hpc]

/-- `f` is the function of the arithmetic opcode under PC. -/
def ArithmeticAt (s : State) (f : Nat → Nat → Nat) : Prop :=
  (s.cell s.pc = 1 ∧ f = fun a b => a + b) ∨ (s.cell s.pc = 2 ∧ f = fun a b => a * b)

/-- Everything a step from Running can do: fail on the first failure of R134, complete an ADD or MULTIPLY, or halt. -/
theorem stepAt_cases {p : Params} {s t : State} (hs : s.status = .running) (h : stepAt p s = .next t) :
    (∃ e, firstFailure p s = some e ∧ t = raise e s) ∨
    (∃ f, ArithmeticAt s f ∧ s.pc < s.len ∧ arithmeticFailure p f s = none ∧ t = advance (s.setCell (s.cell (s.pc + 3))
      (f (s.cell (s.cell (s.pc + 1))) (s.cell (s.cell (s.pc + 2)))))) ∨
    (s.pc < s.len ∧ s.cell s.pc = 99 ∧ t = halt (s.cell 0) s) := by
  by_cases hpc : s.len ≤ s.pc
  · rw [stepAt_beyond p hs hpc] at h
    cases h
    exact .inl ⟨_, by simp [firstFailure, hpc], rfl⟩
  have hlt : s.pc < s.len := Nat.lt_of_not_le hpc
  by_cases h1 : s.cell s.pc = 1
  · rw [stepAt_add p hs hlt h1] at h
    cases h
    rcases arithmeticStep_cases p (fun a b => a + b) s with ⟨e, he, heq⟩ | ⟨hn, heq⟩
    · exact .inl ⟨e, by simp [firstFailure, hpc, h1, he], heq⟩
    · exact .inr (.inl ⟨_, .inl ⟨h1, rfl⟩, hlt, hn, heq⟩)
  by_cases h2 : s.cell s.pc = 2
  · rw [stepAt_multiply p hs hlt h2] at h
    cases h
    rcases arithmeticStep_cases p (fun a b => a * b) s with ⟨e, he, heq⟩ | ⟨hn, heq⟩
    · exact .inl ⟨e, by simp [firstFailure, hpc, h2, he], heq⟩
    · exact .inr (.inl ⟨_, .inr ⟨h2, rfl⟩, hlt, hn, heq⟩)
  by_cases h99 : s.cell s.pc = 99
  · rw [stepAt_stop p hs hlt h99] at h
    cases h
    exact .inr (.inr ⟨hlt, h99, rfl⟩)
  · rw [stepAt_unknown p hs hlt h1 h2 h99] at h
    cases h
    exact .inl ⟨_, by simp [firstFailure, hpc, h1, h2, h99], rfl⟩

/-- What an ADD or MULTIPLY that meets no failure has checked. -/
theorem arithmeticFailure_eq_none {p : Params} {f : Nat → Nat → Nat} {s : State} :
    arithmeticFailure p f s = none ↔ s.pc + 3 < s.len ∧ s.cell (s.pc + 1) < s.len ∧ s.cell (s.pc + 2) < s.len ∧
      p.fits (f (s.cell (s.cell (s.pc + 1))) (s.cell (s.cell (s.pc + 2)))) = true ∧ s.cell (s.pc + 3) < s.len := by
  unfold arithmeticFailure
  constructor
  · intro h
    split_ifs at h with h1 h2 h3 h4 h5 h6 h7
    exact ⟨by omega, by omega, by omega, by simpa using h6, by omega⟩
  · rintro ⟨h3, h4, h5, h6, h7⟩
    rw [if_neg (by omega), if_neg (by omega), if_neg (by omega), if_neg (by omega), if_neg (by omega),
      if_neg (by simp [h6]), if_neg (by omega)]

end Sys2Proof.Machine
end

