-- ==== Sys2Proof/Laws/Run.lean ====
section
/-! SUPPORT. Laws about runs: how one step extends a run, and that a terminal state is left as it is. -/

namespace Sys2Proof.Machine

theorem runAt_succ {p : Params} {s t : State} (k : Nat) (h : stepAt p s = .next t) :
    runAt p (k + 1) s = runAt p k t := by
  simp [runAt, h]

theorem completedSteps_succ {p : Params} {s t : State} (k : Nat) (h : stepAt p s = .next t) :
    completedSteps p (k + 1) s = (if t.status = .running then 1 else 0) + completedSteps p k t := by
  simp [completedSteps, h]

/-- R137, R80: a run leaves a terminal state as it is. -/
theorem runAt_of_terminal (p : Params) {s : State} (k : Nat) (h : s.status ≠ .running) : runAt p k s = .next s := by
  induction k with
  | zero => rfl
  | succ k ih => rw [runAt_succ k (stepAt_of_terminal p h), ih]

/-- A run always answers a next state. -/
theorem runAt_next (p : Params) (k : Nat) (s : State) : ∃ t, runAt p k s = .next t := by
  induction k generalizing s with
  | zero => exact ⟨s, rfl⟩
  | succ k ih =>
    obtain ⟨u, hu⟩ := stepAt_next p s
    rw [runAt_succ k hu]
    exact ih u

/-- The host's run of the core is the run at the core's parameters. -/
theorem core_run (k : Nat) (s : State) : Host.Core.run core k s = runAt Config.core k s := by
  induction k generalizing s with
  | zero => rfl
  | succ k ih =>
    obtain ⟨t, ht⟩ := stepAt_next Config.core s
    have hc : core.step s = .next t := by rw [stepAt_core] at ht; exact ht
    simp only [Host.Core.run, runAt, ht, hc]
    exact ih t

end Sys2Proof.Machine
end

