-- ==== Sys2Proof/Laws/Driver.lean ====
section
/-! SUPPORT. Laws about the search driver: what the scan does with one pair, said once. -/

namespace Sys2Proof.Machine

variable {p : Params} {cfg : SearchConfig} {img : List Nat} {n v : Nat}

/-- Every pair matches, is passed over, ends the scan with its failure, or has no run. -/
theorem pair_cases (p : Params) (cfg : SearchConfig) (img : List Nat) (q : Nat × Nat) :
    Matches p cfg img q ∨ PassedOver p cfg img q ∨
      (cfg.onRunFailure = .abortSearch ∧ ∃ c i, runPair p img q.1 q.2 = .failed c i) ∨
      runPair p img q.1 q.2 = .noRun := by
  cases hq : runPair p img q.1 q.2 with
  | result r =>
    by_cases hr : (r : Int) = cfg.target
    · exact .inl ⟨r, hq, hr⟩
    · exact .inr (.inl (.inl ⟨r, hq, hr⟩))
  | failed c i =>
    cases hp : cfg.onRunFailure with
    | abortSearch => exact .inr (.inr (.inl ⟨rfl, c, i, rfl⟩))
    | skipPair => exact .inr (.inl (.inr ⟨hp, c, i, hq⟩))
  | noRun => exact .inr (.inr (.inr rfl))

theorem scan_of_matches (rest : List (Nat × Nat)) (h : Matches p cfg img (n, v)) :
    scan p cfg img ((n, v) :: rest) = .found (100 * n + v) := by
  obtain ⟨r, hr, ht⟩ := h
  simp [scan, hr, ht]

theorem scan_of_passedOver {q : Nat × Nat} (rest : List (Nat × Nat)) (h : PassedOver p cfg img q) :
    scan p cfg img (q :: rest) = scan p cfg img rest := by
  rcases h with ⟨r, hr, ht⟩ | ⟨hp, c, i, hc⟩
  · simp [scan, hr, ht]
  · simp [scan, hp, hc]

theorem scan_of_failed {c : Cause} {i : Nat} (rest : List (Nat × Nat)) (hp : cfg.onRunFailure = .abortSearch)
    (h : runPair p img n v = .failed c i) : scan p cfg img ((n, v) :: rest) = .aborted c i := by
  simp [scan, hp, h]

theorem scan_of_noRun (rest : List (Nat × Nat)) (h : runPair p img n v = .noRun) :
    scan p cfg img ((n, v) :: rest) = .imageRefused := by
  simp [scan, h]

/-- A scan goes through pairs passed over to the rest. -/
theorem scan_append_of_passedOver {before : List (Nat × Nat)} (rest : List (Nat × Nat))
    (h : ∀ q ∈ before, PassedOver p cfg img q) : scan p cfg img (before ++ rest) = scan p cfg img rest := by
  induction before with
  | nil => rfl
  | cons q qs ih =>
    rw [List.cons_append, scan_of_passedOver _ (h q (by simp)), ih fun q hq => h q (by simp [hq])]

theorem not_matches_of_passedOver {q : Nat × Nat} (h : PassedOver p cfg img q) : ¬ Matches p cfg img q := by
  rintro ⟨r, hr, ht⟩
  rcases h with ⟨r', hr', ht'⟩ | ⟨-, c, i, hc⟩
  · rw [hr] at hr'
    cases hr'
    exact ht' ht
  · rw [hr] at hc
    cases hc

end Sys2Proof.Machine
end

