-- ==== Sys2Proof/Laws/PerInstr.lean ====
section
/-! SUPPORT. Laws stated of every instruction, one lemma per constructor. -/

namespace Sys2Proof.Laws.CellRoundTrip

/-- The decoder reads an instruction back from its cells, whatever cells follow (spec/30_encoding.md R60 to R64). -/
def Statement (i : Instr) : Prop :=
  (encode i).length = i.length ∧ ∀ rest : List Nat, decode (encode i ++ rest) = .ok i

theorem add (a b d : Nat) : Statement (.add a b d) := ⟨rfl, fun _ => rfl⟩

theorem multiply (a b d : Nat) : Statement (.multiply a b d) := ⟨rfl, fun _ => rfl⟩

theorem stop : Statement .stop := ⟨rfl, fun _ => rfl⟩

end Sys2Proof.Laws.CellRoundTrip
end

