-- ==== Sys2Proof/Tests/Slice0.lean ====
section
/-! SUPPORT. Slice0: the model's own tests, with expected results from the spec, and for each obligation with hypotheses
a witness that meets them. -/

namespace Sys2Proof.Tests

open Sys2Proof Sys2Proof.Machine

/-- The launch state of an image. -/
def launched (img : List Nat) : State := State.ofImage img

/-- The state an outcome answers. -/
def stateOf : Host.Outcome State Fault Refusal → Option State
  | .next t => some t
  | .fault _ => none
  | .refused _ => none

/-- The state after one step. -/
def stepped (s : State) : Option State := stateOf (step s)

/-! ### WellFormed: one ill-formed term per check -/

theorem test_wellFormed_accepts_largest_operands :
    (Instr.add (2 ^ 64 - 1) (2 ^ 64 - 1) (2 ^ 64 - 1)).wellFormed = true ∧
    (Instr.multiply (2 ^ 64 - 1) 0 (2 ^ 64 - 1)).wellFormed = true ∧ Instr.stop.wellFormed = true := by decide

theorem test_wellFormed_refuses_add_first : (Instr.add (2 ^ 64) 0 0).wellFormed = false := by decide
theorem test_wellFormed_refuses_add_second : (Instr.add 0 (2 ^ 64) 0).wellFormed = false := by decide
theorem test_wellFormed_refuses_add_third : (Instr.add 0 0 (2 ^ 64)).wellFormed = false := by decide
theorem test_wellFormed_refuses_multiply_first : (Instr.multiply (2 ^ 64) 0 0).wellFormed = false := by decide
theorem test_wellFormed_refuses_multiply_second : (Instr.multiply 0 (2 ^ 64) 0).wellFormed = false := by decide
theorem test_wellFormed_refuses_multiply_third : (Instr.multiply 0 0 (2 ^ 64)).wellFormed = false := by decide
theorem test_wellFormed_refuses_cell : (Line.cell (2 ^ 64)).wellFormedAt Config.core = false := by decide
theorem test_wellFormed_refuses_line : (Line.instr (.add 0 0 (2 ^ 64))).wellFormedAt Config.core = false := by decide

/-- R5: 2^32 is no value of a 32-bit cell, and is one of an unbounded cell. -/
theorem test_wellFormed_reads_xlen : (Instr.add (2 ^ 32) 0 0).wellFormedAt (Config.ofXlen 32) = false ∧
    (Instr.add (2 ^ 64) 0 0).wellFormedAt Config.unbounded = true := by decide

/-- R6: `MEMCAP ≤ 2^XLEN − 4`, and both defaults are in range. -/
theorem test_params_valid : Config.core.valid = true ∧ Config.unbounded.valid = true ∧
    (Params.mk (some 64) (some (2 ^ 64 - 3))).valid = false ∧ (Params.mk (some 0) (some 0)).valid = false := by decide

/-! ### Decoding: words written out from R61, R62 and spec/opcode_table.json -/

/-- ADD, format Q: opcode cell 1, then a_addr, b_addr, dst_addr (program P1, line 0). -/
theorem test_decode_add : decode [1, 9, 10, 3] = .ok (.add 9 10 3) := by decide

/-- MULTIPLY, format Q: opcode cell 2 (program P1, line 4). -/
theorem test_decode_multiply : decode [2, 3, 11, 0] = .ok (.multiply 3 11 0) := by decide

/-- STOP, format Z: opcode cell 99; the cells after it are no part of it (T3). -/
theorem test_decode_stop : decode [99, 1, 2, 3] = .ok .stop := by decide

/-- T5, T6, T7 and R63: whole-cell compare; 0, 3, 100, 101, 1001 and 2^32 + 1 are no opcodes. -/
theorem test_decode_unknown : ∀ v ∈ [0, 3, 98, 100, 101, 1001, 2 ^ 32 + 1, 2 ^ 64 - 1],
    decode [v, 0, 0, 0] = .error (.unknownOpcode v) := by decide

/-- R84: the opcode is decoded before a missing operand is found; T10 and T11: the first missing operand cell. -/
theorem test_decode_order : decode [5] = .error (.unknownOpcode 5) ∧ decode [1] = .error (.missingCell 1) ∧
    decode [1, 0, 0] = .error (.missingCell 3) ∧ decode [] = .error (.missingCell 0) := by decide

/-- The table's match of each row, bit by bit: bit 0 is the lowest bit of the opcode cell, the operand cells zero. -/
theorem test_table_words : decodeTableWord 64 0x0000000000000001 = some (.add 0 0 0) ∧
    decodeTableWord 64 0x0000000000000002 = some (.multiply 0 0 0) ∧
    decodeTableWord 64 0x0000000000000063 = some .stop := by decide

/-- Each operand cell stands at its own 64 bits: a_addr at bit 64, b_addr at bit 128, dst_addr at bit 192. -/
theorem test_table_word_operands : decodeTableWord 256
    (0x0000000000000003 * 2 ^ 192 + 0x000000000000000A * 2 ^ 128 + 0x0000000000000009 * 2 ^ 64 + 0x0000000000000001) =
      some (.add 9 10 3) := by decide

/-- The listing of program P1 gives the image the spec writes for it (R69). -/
theorem test_assemble_p1 : assemble [.instr (.add 9 10 3), .instr (.multiply 3 11 0), .instr .stop, .cell 30, .cell 40,
    .cell 50] = [1, 9, 10, 3, 2, 3, 11, 0, 99, 30, 40, 50] := by decide

/-! ### One step of each instruction -/

/-- S1: the first step of `[1,0,0,0,99]` gives `[2,0,0,0,99]` with PC 4; the instruction overwrites its own opcode. -/
theorem test_add_overwrites_own_opcode :
    stepped (launched [1, 0, 0, 0, 99]) = some { launched [2, 0, 0, 0, 99] with pc := 4 } := by decide

/-- T25 and T26: 2^64 − 1 plus 0 is written; 2^64 − 1 plus 1 fails with ArithmeticOverflow(0), MEM unchanged. -/
theorem test_add_at_the_top :
    (stepped (launched [1, 5, 6, 0, 99, 18446744073709551615, 0])).map (·.cell 0) = some 18446744073709551615 ∧
    stepped (launched [1, 5, 6, 0, 99, 18446744073709551615, 1]) =
      some (failedState (launched [1, 5, 6, 0, 99, 18446744073709551615, 1]) .arithmeticOverflow 0) := by decide

/-- S2: the first step of `[2,3,0,3,99]` gives `[2,3,0,6,99]` with PC 4; the destination is a source and an operand. -/
theorem test_multiply_destination_is_source :
    stepped (launched [2, 3, 0, 3, 99]) = some { launched [2, 3, 0, 6, 99] with pc := 4 } := by decide

/-- T27 and T28: 2^32 × 2^32 fails; (2^32 − 1)(2^32 + 1) = 2^64 − 1 is written. -/
theorem test_multiply_at_the_top :
    stepped (launched [2, 5, 5, 0, 99, 4294967296]) =
      some (failedState (launched [2, 5, 5, 0, 99, 4294967296]) .arithmeticOverflow 0) ∧
    (stepped (launched [2, 5, 6, 0, 99, 4294967295, 4294967297])).map (·.cell 0) = some 18446744073709551615 := by
  decide

/-- T2: STOP as the first instruction, in the last cell: RESULT 99, PC 0. -/
theorem test_stop_first_and_last :
    stepped (launched [99]) = some { launched [99] with status := .halted, result := 99 } := by decide

/-- S1, second step: at PC 4 of `[2,0,0,0,99]` the result is the cell as written, not the image's. -/
theorem test_stop_reads_written_cell_zero :
    stepped { launched [2, 0, 0, 0, 99] with pc := 4 } =
      some { launched [2, 0, 0, 0, 99] with pc := 4, status := .halted, result := 2 } := by decide

/-! ### Failures, launch, trace and parameters -/

/-- T1, T4, S4: the empty image fails with OutOfBounds(0); `[5]` and `[5,0,0,0]` fail with UnknownOpcode(5). -/
theorem test_failure_fetch_and_decode :
    stepped (launched []) = some (failedState (launched []) .outOfBounds 0) ∧
    stepped (launched [5]) = some (failedState (launched [5]) .unknownOpcode 5) ∧
    stepped (launched [5, 0, 0, 0]) = some (failedState (launched [5, 0, 0, 0]) .unknownOpcode 5) := by decide

/-- T12, T15, T29, S5: `[1,9,0]` reports 3 and not 9; `[1,9,8,7]` reports 9; overflow comes before the destination;
`[1,0,0,10]` reports 10. -/
theorem test_failure_priority :
    stepped (launched [1, 9, 0]) = some (failedState (launched [1, 9, 0]) .outOfBounds 3) ∧
    stepped (launched [1, 9, 8, 7]) = some (failedState (launched [1, 9, 8, 7]) .outOfBounds 9) ∧
    stepped (launched [2, 5, 5, 9, 99, 4294967296]) =
      some (failedState (launched [2, 5, 5, 9, 99, 4294967296]) .arithmeticOverflow 0) ∧
    stepped (launched [1, 0, 0, 10]) = some (failedState (launched [1, 0, 0, 10]) .outOfBounds 10) := by decide

/-- H3: no step from the end state of S4. -/
theorem test_failed_is_absorbing : stepped (failedState (launched [5]) .unknownOpcode 5) =
    some (failedState (launched [5]) .unknownOpcode 5) := by decide

/-- H1, H2: the launch of `[1,0,0,0,99]`, from reset and from a machine that has halted. -/
theorem test_launch : relaunch Config.core [1, 0, 0, 0, 99] State.reset = launched [1, 0, 0, 0, 99] ∧
    relaunch Config.core [1, 0, 0, 0, 99] { launched [30, 1, 1, 4, 2, 5, 6, 0, 99] with status := .halted, pc := 8 } =
      launched [1, 0, 0, 0, 99] ∧ (launched [1, 0, 0, 0, 99]).len = 5 := by decide

/-- H5: an image with the element 2^XLEN is refused and nothing changes. -/
theorem test_launch_refused : relaunch Config.core [2 ^ 64] (launched [99]) = launched [99] ∧
    admissible Config.core [2 ^ 64 - 1] = true := by decide

/-- R26, R27: the codes. -/
theorem test_codes : Status.running.code = 0 ∧ Status.halted.code = 1 ∧ Status.failed.code = 2 ∧ Cause.none.code = 0 ∧
    Cause.outOfBounds.code = 1 ∧ Cause.unknownOpcode.code = 2 ∧ Cause.arithmeticOverflow.code = 3 := by decide

/-- R92's worked example: the first step of program P1. -/
theorem test_trace_p1 : stepTrace Config.core (launched [1, 9, 10, 3, 2, 3, 11, 0, 99, 30, 40, 50]) =
    [.read 0, .read 1, .read 2, .read 3, .read 9, .read 10, .write 3 70] := by decide

/-- S5, P4: an access that raises is the last of its trace. -/
theorem test_trace_ends_at_the_raise :
    stepTrace Config.core (launched [1, 0, 0, 10]) =
      [.read 0, .read 1, .read 2, .read 3, .read 0, .read 0, .write 10 2] ∧
    stepTrace Config.core (launched [1, 0, 5, 0, 99]) =
      [.read 0, .read 1, .read 2, .read 3, .read 0, .read 5] := by decide

/-- P5, T31: with XLEN = 128 or unbounded cells 2^32 × 2^32 is written; with XLEN = 32 the image is refused. -/
theorem test_parametric_overflow :
    (stateOf (stepAt (Config.ofXlen 128) (launched [2, 5, 5, 0, 99, 4294967296]))).map (·.cell 0) =
      some 18446744073709551616 ∧
    (stateOf (stepAt Config.unbounded (launched [2, 5, 5, 0, 99, 4294967296]))).map (·.cell 0) =
      some 18446744073709551616 ∧
    admissible (Config.ofXlen 32) [2, 5, 5, 0, 99, 4294967296] = false := by decide

/-- The table's row word is run as the first instruction after reset. -/
theorem test_withFetchWord_from_reset :
    (stepped (State.reset.withFetchWord 64 1)).map (fun t => (t.cell 0, t.pc, t.status)) = some (2, 4, .running) ∧
    (stepped (State.reset.withFetchWord 64 2)).map (fun t => (t.cell 0, t.pc, t.status)) = some (4, 4, .running) ∧
    (stepped (State.reset.withFetchWord 64 99)).map (fun t => (t.result, t.pc, t.status)) = some (99, 0, .halted) := by
  decide

/-- P4: on `[1,0,0,0,99]` with N = V = 2 the target 3 is not found and the target 1 is found at (0, 1). -/
theorem test_search_p4 :
    search Config.core ⟨3, 2, 2, .abortSearch⟩ [1, 0, 0, 0, 99] = .notFound ∧
    search Config.core ⟨1, 2, 2, .abortSearch⟩ [1, 0, 0, 0, 99] = .found 1 := by decide

/-! ### Witnesses: concrete states and operands that meet the hypotheses of the obligations -/

/-- TableWordRoundTrip: the largest and the smallest operands. -/
theorem witness_TableWordRoundTrip : (Instr.add (2 ^ 64 - 1) 0 (2 ^ 64 - 1)).wellFormed = true ∧
    (Instr.multiply 0 (2 ^ 64 - 1) 0).wellFormed = true := by decide

/-- DecodedWordsAreEncodings. -/
theorem witness_DecodedWordsAreEncodings : decodeTableWord 256 (2 + (2 ^ 64 - 1) * 2 ^ 192) =
    some (.multiply 0 0 (2 ^ 64 - 1)) ∧ decodeTableWord 64 99 = some .stop := by decide

/-- MemWriteSetsExactlyOneCell: the last cell of the run, and the first address beyond it. -/
theorem witness_MemWriteSetsExactlyOneCell : 4 < (launched [1, 0, 0, 0, 99]).len ∧
    (launched [1, 0, 0, 0, 99]).len ≤ 5 := by decide

/-- LaunchSetsEveryElement: an image with the largest value. -/
theorem witness_LaunchSetsEveryElement : [2 ^ 64 - 1].length ≤ Config.memcap ∧
    ∀ v ∈ [2 ^ 64 - 1], v < 2 ^ Config.xlen := by decide

/-- InadmissibleImageIsRefused, second clause: the smallest value no cell can hold. -/
theorem witness_InadmissibleImageIsRefused :
    Config.memcap < [2 ^ 64].length ∨ ∃ v ∈ [2 ^ 64], 2 ^ Config.xlen ≤ v := .inr ⟨_, List.mem_singleton.mpr rfl, le_refl _⟩

/-- HostReadsOnlyTerminalStates: a state of each kind. -/
theorem witness_HostReadsOnlyTerminalStates : (launched [99]).status = .running ∧
    (halt 99 (launched [99])).status = .halted ∧ (raise (.outOfBounds 0) (launched [])).status = .failed := by decide

/-- StepsExactlyWhileRunning, second clause. -/
theorem witness_StepsExactlyWhileRunning : (halt 99 (launched [99])).status ≠ .running := by decide

/-- StepRunsTheStoredInstruction: an ADD that ends at LEN, and a STOP in the last cell. -/
theorem witness_StepRunsTheStoredInstruction :
    (launched [1, 3, 3, 3]).status = .running ∧
    (∀ k (h : k < (encode (.add 3 3 3)).length), (launched [1, 3, 3, 3]).pc + k < (launched [1, 3, 3, 3]).len ∧
      (launched [1, 3, 3, 3]).cell ((launched [1, 3, 3, 3]).pc + k) = (encode (.add 3 3 3))[k]) ∧
    (∀ k (h : k < (encode .stop).length), (launched [99]).pc + k < (launched [99]).len ∧
      (launched [99]).cell ((launched [99]).pc + k) = (encode .stop)[k]) := by decide

/-- PlacedInstructionIsRun. -/
theorem witness_PlacedInstructionIsRun : decodeTableWord 256 (1 + 9 * 2 ^ 64) = some (.add 9 0 0) := by decide

/-- AddStepFollowsItsRule: the hypotheses, at one image for each of its eight clauses. -/
theorem witness_AddStepFollowsItsRule :
    ∀ img ∈ [[1], [1, 0], [1, 0, 0], [1, 4, 0, 0], [1, 0, 4, 0], [1, 5, 6, 0, 99, 2 ^ 64 - 1, 1], [1, 0, 0, 4], [1, 0, 0, 3]],
      (launched img).status = .running ∧ (launched img).pc < (launched img).len ∧
        (launched img).cell (launched img).pc = 1 := by decide

/-- AddStepFollowsItsRule: those images meet the eight clauses in order, at the boundary of each check. -/
theorem witness_AddStepFollowsItsRule_clauses :
    [[1], [1, 0], [1, 0, 0], [1, 4, 0, 0], [1, 0, 4, 0], [1, 5, 6, 0, 99, 2 ^ 64 - 1, 1], [1, 0, 0, 4], [1, 0, 0, 3]].map
      (fun img => firstFailure Config.core (launched img)) =
    [some (.outOfBounds 1), some (.outOfBounds 2), some (.outOfBounds 3), some (.outOfBounds 4), some (.outOfBounds 4),
      some (.arithmeticOverflow 0), some (.outOfBounds 4), none] := by decide

/-- MultiplyStepFollowsItsRule: the hypotheses, at one image for each of its eight clauses. -/
theorem witness_MultiplyStepFollowsItsRule :
    ∀ img ∈ [[2], [2, 0], [2, 0, 0], [2, 4, 0, 0], [2, 0, 4, 0], [2, 5, 5, 0, 99, 2 ^ 32], [2, 0, 0, 4], [2, 0, 0, 3]],
      (launched img).status = .running ∧ (launched img).pc < (launched img).len ∧
        (launched img).cell (launched img).pc = 2 := by decide

/-- MultiplyStepFollowsItsRule: those images meet the eight clauses in order, at the boundary of each check. -/
theorem witness_MultiplyStepFollowsItsRule_clauses :
    [[2], [2, 0], [2, 0, 0], [2, 4, 0, 0], [2, 0, 4, 0], [2, 5, 5, 0, 99, 2 ^ 32], [2, 0, 0, 4], [2, 0, 0, 3]].map
      (fun img => firstFailure Config.core (launched img)) =
    [some (.outOfBounds 1), some (.outOfBounds 2), some (.outOfBounds 3), some (.outOfBounds 4), some (.outOfBounds 4),
      some (.arithmeticOverflow 0), some (.outOfBounds 4), none] := by decide

/-- StopStepHaltsWithCellZero: STOP in the last cell of the run. -/
theorem witness_StopStepHaltsWithCellZero : (launched [99]).status = .running ∧
    (launched [99]).pc < (launched [99]).len ∧ (launched [99]).cell (launched [99]).pc = 99 := by decide

/-- UnknownOpcodeEndsTheRun: the neighbours of the opcodes, in the last cell of the run. -/
theorem witness_UnknownOpcodeEndsTheRun : ∀ img ∈ [[0], [3], [98], [100]], (launched img).status = .running ∧
    (launched img).pc < (launched img).len ∧ (launched img).cell (launched img).pc ≠ 1 ∧
    (launched img).cell (launched img).pc ≠ 2 ∧ (launched img).cell (launched img).pc ≠ 99 := by decide

/-- FirstFailureIsReported: a state with a first failure and one with none. -/
theorem witness_FirstFailureIsReported : (launched [1, 9, 0]).status = .running ∧
    firstFailure Config.core (launched [1, 9, 0]) = some (.outOfBounds 3) ∧
    firstFailure Config.core (launched [1, 0, 0, 0]) = none := by decide

/-- FailureEntryKeepsTheRest, FailureRecordNamesTheOffender and TraceOfAFailingStep: a failing step of each kind. -/
theorem witness_failing_steps :
    (launched [5]).status = .running ∧
    stepped (launched [5]) = some (failedState (launched [5]) .unknownOpcode 5) ∧
    stepped (launched [1, 0, 0, 4]) = some (failedState (launched [1, 0, 0, 4]) .outOfBounds 4) ∧
    stepped (launched [2, 5, 5, 0, 99, 2 ^ 32]) =
      some (failedState (launched [2, 5, 5, 0, 99, 2 ^ 32]) .arithmeticOverflow 0) := by decide

/-- StatusTransitionsAreTheFour, LenIsConstant: a step that completes, one that halts, one in a terminal state, an
admissible image, and a destination just beyond the end. -/
theorem witness_StatusTransitionsAreTheFour :
    stepped (launched [1, 0, 0, 0]) = some { launched [2, 0, 0, 0] with pc := 4 } ∧
    stepped (launched [99]) = some (halt 99 (launched [99])) ∧
    stepped (halt 99 (launched [99])) = some (halt 99 (launched [99])) ∧
    (halt 99 (launched [99])).status ≠ .running ∧ admissible Config.core [99] = true ∧
    (launched [1, 0, 0, 4]).len ≤ 4 := by decide

/-- RunningOffTheEndFails: PC at LEN, an ADD cut off by one cell, and an unknown opcode. -/
theorem witness_RunningOffTheEndFails :
    (State.mk [(0, 2)] 4 4 .running .none 0 0).status = .running ∧ (State.mk [(0, 2)] 4 4 .running .none 0 0).pc = 4 ∧
    (launched [1, 0, 0]).pc < (launched [1, 0, 0]).len ∧ (launched [1, 0, 0]).len ≤ (launched [1, 0, 0]).pc + 3 ∧
    (launched [1, 0, 0]).cell (launched [1, 0, 0]).pc = 1 ∧ (launched [3]).cell (launched [3]).pc ≠ 1 ∧
    (launched [3]).cell (launched [3]).pc ≠ 2 ∧ (launched [3]).cell (launched [3]).pc ≠ 99 := by decide

/-- OnlyStopHalts. -/
theorem witness_OnlyStopHalts : (launched [99]).status = .running := by decide

/-- AddCompletes: all addresses the last cell; the largest sum that fits. -/
theorem witness_AddCompletes : 1 < (launched [2 ^ 63, 2 ^ 63 - 1]).len ∧ 0 < (launched [2 ^ 63, 2 ^ 63 - 1]).len ∧
    (launched [2 ^ 63, 2 ^ 63 - 1]).cell 0 + (launched [2 ^ 63, 2 ^ 63 - 1]).cell 1 < 2 ^ Config.xlen := by decide

/-- MultiplyCompletes: the largest product that fits. -/
theorem witness_MultiplyCompletes : 1 < (launched [2 ^ 32 - 1, 2 ^ 32 + 1]).len ∧
    0 < (launched [2 ^ 32 - 1, 2 ^ 32 + 1]).len ∧
    (launched [2 ^ 32 - 1, 2 ^ 32 + 1]).cell 0 * (launched [2 ^ 32 - 1, 2 ^ 32 + 1]).cell 1 < 2 ^ Config.xlen := by decide

/-- StopCompletes. -/
theorem witness_StopCompletes : 0 < (launched [99]).len := by decide

/-- ArithmeticFrame and SourcesCommute: an ADD and a MULTIPLY that complete, and an ADD that fails. -/
theorem witness_ArithmeticFrame :
    stateOf (exec (.add 0 1 2) (launched [3, 4, 0])) = some { launched [3, 4, 7] with pc := 4 } ∧
    stateOf (exec (.multiply 0 1 2) (launched [3, 4, 0])) = some { launched [3, 4, 12] with pc := 4 } ∧
    stateOf (exec (.add 0 1 3) (launched [3, 4, 0])) = some (failedState (launched [3, 4, 0]) .outOfBounds 3) ∧
    (launched [3, 4, 0]).status = .running := by decide

/-- StopFrame: a STOP that halts, and one with no cell 0. -/
theorem witness_StopFrame : stateOf (exec .stop (launched [7])) = some (halt 7 (launched [7])) ∧
    stateOf (exec .stop (launched [])) = some (failedState (launched []) .outOfBounds 0) := by decide

/-- CopyIdioms: a cell with 0 and a cell with 1, copying the largest value. -/
theorem witness_CopyIdioms : 3 < (launched [2 ^ 64 - 1, 0, 1, 5]).len ∧
    (launched [2 ^ 64 - 1, 0, 1, 5]).cell 0 < 2 ^ Config.xlen ∧ (launched [2 ^ 64 - 1, 0, 1, 5]).cell 1 = 0 ∧
    (launched [2 ^ 64 - 1, 0, 1, 5]).cell 2 = 1 := by decide

/-- NextFetchSeesTheWrite: an ADD whose destination is the next opcode cell, at one image for each clause: it writes 99
(90 + 9), 3 (T17), 1 with its operands ending at LEN, 2 (S3), and 2 with an operand missing (T16). -/
theorem witness_NextFetchSeesTheWrite :
    (∀ img ∈ [[1, 5, 6, 4, 0, 90, 9], [1, 5, 6, 4, 99, 1, 2], [1, 5, 6, 4, 99, 0, 1, 0], [1, 1, 1, 4, 99, 5, 6, 0, 99]],
      (launched img).status = .running ∧ (launched img).pc + 4 < (launched img).len ∧
        (launched img).cell ((launched img).pc + 3) = (launched img).pc + 4) ∧
    stepped (launched [1, 5, 6, 4, 0, 90, 9]) = some { launched [1, 5, 6, 4, 99, 90, 9] with pc := 4 } ∧
    stepped (launched [1, 5, 6, 4, 99, 1, 2]) = some { launched [1, 5, 6, 4, 3, 1, 2] with pc := 4 } ∧
    stepped (launched [1, 5, 6, 4, 99, 0, 1, 0]) = some { launched [1, 5, 6, 4, 1, 0, 1, 0] with pc := 4 } ∧
    7 < (launched [1, 5, 6, 4, 99, 0, 1, 0]).len ∧
    stepped (launched [1, 1, 1, 4, 99, 5, 6, 0, 99]) = some { launched [1, 1, 1, 4, 2, 5, 6, 0, 99] with pc := 4 } ∧
    stepped (launched [1, 0, 0, 4, 99]) = some { launched [1, 0, 0, 4, 2] with pc := 4 } ∧
    (launched [1, 0, 0, 4, 99]).len ≤ 7 := by decide

/-- TraceOfASafeStep: an ADD, a MULTIPLY and a STOP that meet no failure. -/
theorem witness_TraceOfASafeStep : ∀ img ∈ [[1, 0, 0, 3], [2, 0, 0, 3], [99]], SafeStep Config.core (launched img) := by
  unfold SafeStep; decide

/-- StepReadsOnlyItsTrace: two different states with equal registers that agree on the cells the step reads. -/
theorem witness_StepReadsOnlyItsTrace :
    SameRegisters (launched [1, 0, 0, 0, 99, 7]) (launched [1, 0, 0, 0, 99, 8]) ∧
    (∀ a, Access.read a ∈ stepTrace Config.core (launched [1, 0, 0, 0, 99, 7]) →
      (launched [1, 0, 0, 0, 99, 7]).cell a = (launched [1, 0, 0, 0, 99, 8]).cell a) ∧
    launched [1, 0, 0, 0, 99, 7] ≠ launched [1, 0, 0, 0, 99, 8] := by
  have trace : stepTrace Config.core (launched [1, 0, 0, 0, 99, 7]) =
      [.read 0, .read 1, .read 2, .read 3, .read 0, .read 0, .write 0 2] := by decide
  refine ⟨by unfold SameRegisters; decide, fun a h => ?_, by decide⟩
  have ha : a = 0 ∨ a = 1 ∨ a = 2 ∨ a = 3 := by
    rw [trace] at h
    simp at h
    omega
  rcases ha with rfl | rfl | rfl | rfl <;> decide

/-- The invariant in a Running state: StepKeepsTheInvariant, AnyWidthStepKeepsTheInvariant, RegistersFitTheirWidths. -/
theorem witness_invariant_running : Inv Config.core (launched [1, 0, 0, 0, 99]) where
  memCanonical := by decide
  memInBounds := by decide
  memFits := by decide
  lenHeld := by decide
  pcInRange := by decide
  pcAligned := by decide
  runningRecord := by decide
  haltedRecord := by decide
  failedRecord := fun h => absurd h (by decide)

/-- The invariant in a Halted state. -/
theorem witness_invariant_halted : Inv Config.core (halt 99 (launched [99])) where
  memCanonical := by decide
  memInBounds := by decide
  memFits := by decide
  lenHeld := by decide
  pcInRange := by decide
  pcAligned := by decide
  runningRecord := by decide
  haltedRecord := by decide
  failedRecord := fun h => absurd h (by decide)

/-- The invariant in a Failed state. -/
theorem witness_invariant_failed : Inv Config.core (failedState (launched [5]) .unknownOpcode 5) where
  memCanonical := by decide
  memInBounds := by decide
  memFits := by decide
  lenHeld := by decide
  pcInRange := by decide
  pcAligned := by decide
  runningRecord := by decide
  haltedRecord := by decide
  failedRecord := fun _ => ⟨by decide, .unknownOpcode 5, by decide, by decide, by decide⟩

/-- LaunchEstablishesTheInvariant, PcInvariantsOfARun, EveryRunEndsWithinTheBound, EveryRunHasAnOutcome and
RunsAreThoseOfUnboundedIntegers: a launch, one step of the run, and no overflow. -/
theorem witness_runs : admissible Config.core [1, 0, 0, 0, 99] = true ∧
    stateOf (launch Config.core [1, 0, 0, 0, 99]) = some (launched [1, 0, 0, 0, 99]) ∧
    stateOf (runAt Config.core 1 (launched [1, 0, 0, 0, 99])) = some { launched [2, 0, 0, 0, 99] with pc := 4 } ∧
    (State.mk [(0, 2), (4, 99)] 5 4 .running .none 0 0).cause ≠ .arithmeticOverflow := by decide

/-- PokeReplacesCellsOneAndTwo and ShortImagePokeFails: the shortest image that takes both pokes, and the longest that
does not. -/
theorem witness_pokes : 3 ≤ [1, 0, 0].length ∧ [1, 0].length < 3 ∧ ([] : List Nat).length < 3 := by decide

/-- SearchFindsTheFirstMatch, first clause. -/
theorem witness_SearchFindsTheFirstMatch :
    search Config.core ⟨1, 2, 2, .abortSearch⟩ [1, 0, 0, 0, 99] = .found 1 := by decide

/-- SearchFindsTheFirstMatch, the other direction under `abort_search`: the pair (0, 1) of P4 matches after a pair that gives
another result and does not fail. -/
theorem witness_SearchFindsTheFirstMatch_abort :
    scanOrder (SearchConfig.mk 1 2 2 .abortSearch).nounBound.toNat (SearchConfig.mk 1 2 2 .abortSearch).verbBound.toNat =
      [(0, 0)] ++ (0, 1) :: [(1, 0), (1, 1)] ∧
    Matches Config.core ⟨1, 2, 2, .abortSearch⟩ [1, 0, 0, 0, 99] (0, 1) ∧
    (∀ q ∈ [(0, 0)], PassedOver Config.core ⟨1, 2, 2, .abortSearch⟩ [1, 0, 0, 0, 99] q) ∧
    (∀ q ∈ [(0, 0)], ∀ c i, runPair Config.core [1, 0, 0, 0, 99] q.1 q.2 ≠ .failed c i) ∧
    admissible Config.core [1, 0, 0, 0, 99] = true ∧
    (SearchConfig.mk 1 2 2 .abortSearch).nounBound ≤ 2 ^ Config.xlen ∧
    (SearchConfig.mk 1 2 2 .abortSearch).verbBound ≤ 2 ^ Config.xlen := by
  have first : runPair Config.core [1, 0, 0, 0, 99] 0 0 = .result 2 := by decide
  refine ⟨by decide, ⟨1, by decide, by decide⟩, ?_, ?_, by decide, by decide, by decide⟩
  · intro q hq
    rw [List.mem_singleton.mp hq]
    exact .inl ⟨2, first, by decide⟩
  · intro q hq c i
    rw [List.mem_singleton.mp hq, first]
    exact nofun

/-- SearchFindsTheFirstMatch, the other direction under `skip_pair`: on `[1,0,0,4,98]` the pairs (0, 0) to (0, 3) fail, and
(0, 4) writes a STOP, 1 + 98, and gives 1. -/
theorem witness_SearchFindsTheFirstMatch_skip :
    scanOrder (SearchConfig.mk 1 1 5 .skipPair).nounBound.toNat (SearchConfig.mk 1 1 5 .skipPair).verbBound.toNat =
      [(0, 0), (0, 1), (0, 2), (0, 3)] ++ (0, 4) :: [] ∧
    Matches Config.core ⟨1, 1, 5, .skipPair⟩ [1, 0, 0, 4, 98] (0, 4) ∧
    runPair Config.core [1, 0, 0, 4, 98] 0 0 = .failed .outOfBounds 5 ∧
    admissible Config.core [1, 0, 0, 4, 98] = true := by
  exact ⟨by decide, ⟨1, by decide, by decide⟩, by decide, by decide⟩

/-- SearchEndsByItsPolicy: the hypotheses under each policy; a search that is not found under each, one that is aborted (P4:
the pair (0, 5)), and one whose image is refused. -/
theorem witness_SearchEndsByItsPolicy : admissible Config.core [1, 0, 0, 0, 99] = true ∧
    (SearchConfig.mk 198 1 6 .skipPair).nounBound ≤ 2 ^ Config.xlen ∧
    (SearchConfig.mk 198 1 6 .skipPair).verbBound ≤ 2 ^ Config.xlen ∧
    search Config.core ⟨198, 1, 6, .abortSearch⟩ [1, 0, 0, 0, 99] = .aborted .outOfBounds 5 ∧
    search Config.core ⟨198, 1, 6, .skipPair⟩ [1, 0, 0, 0, 99] = .notFound ∧
    search Config.core ⟨198, 1, 5, .abortSearch⟩ [1, 0, 0, 0, 99] = .notFound ∧
    search Config.core ⟨198, 1, 1, .skipPair⟩ [2 ^ 64, 0, 0] = .imageRefused := by decide

/-- StepKeepsUnboundedAgreement: one state in both machines, and a state that has overflowed. -/
theorem witness_StepKeepsUnboundedAgreement :
    stateOf (stepAt Config.core (launched [1, 0, 0, 0])) = some { launched [2, 0, 0, 0] with pc := 4 } ∧
    stateOf (stepAt Config.unbounded (launched [1, 0, 0, 0])) = some { launched [2, 0, 0, 0] with pc := 4 } ∧
    Overflowed (failedState (launched [2, 5, 5, 0, 99, 2 ^ 32]) .arithmeticOverflow 0) := by
  unfold Overflowed
  decide

/-- StepKeepsThePcCount: before the first instruction, and after the last with PC at LEN. -/
theorem witness_StepKeepsThePcCount : PcCounts 0 (launched [1, 0, 0, 0]) ∧
    PcCounts 1 { launched [2, 0, 0, 0] with pc := 4 } ∧
    stepped (launched [1, 0, 0, 0]) = some { launched [2, 0, 0, 0] with pc := 4 } := by
  unfold PcCounts
  decide

end Sys2Proof.Tests
end

namespace Sys2Proof.Machine

/-! ### The invariant through the three ends of a step -/

/-- The table of R134 reads MEM, LEN and PC only, and entering Failed writes none of them. -/
@[simp] theorem firstFailure_raise (p : Params) (e : Failure) (s : State) :
    firstFailure p (raise e s) = firstFailure p s := rfl

section
variable {p : Params} {s : State}

/-- Entering Failed from Running keeps the invariant when the failure raised is the first one of R134. -/
theorem Inv.raise_firstFailure {e : Failure} (hi : Inv p s) (hs : s.status = .running)
    (he : firstFailure p s = some e) : Inv p (raise e s) where
  memCanonical := hi.memCanonical
  memInBounds := hi.memInBounds
  memFits := hi.memFits
  lenHeld := hi.lenHeld
  pcInRange := hi.pcInRange
  pcAligned := hi.pcAligned
  runningRecord := by simp
  haltedRecord := by simp
  failedRecord _ := by
    obtain ⟨-, -, hresult⟩ := hi.runningRecord hs
    exact ⟨hresult, e, he, rfl, rfl⟩

/-- A STOP under PC keeps the invariant: cell 0 is latched and PC stays on the opcode 99. -/
theorem Inv.halt_cell_zero (hi : Inv p s) (hs : s.status = .running) (hpc : s.pc < s.len)
    (hop : s.cell s.pc = 99) : Inv p (halt (s.cell 0) s) where
  memCanonical := hi.memCanonical
  memInBounds := hi.memInBounds
  memFits := hi.memFits
  lenHeld := hi.lenHeld
  pcInRange := hi.pcInRange
  pcAligned := hi.pcAligned
  runningRecord := by simp
  haltedRecord _ := by
    obtain ⟨hcause, hinfo, -⟩ := hi.runningRecord hs
    exact ⟨hcause, hinfo, rfl, hpc, hop⟩
  failedRecord := by simp

/-- A write of a value that fits, to a cell of the run, and `PC + 4` within LEN keep the invariant of a Running state. -/
theorem Inv.advance_setCell {d r : Nat} (hi : Inv p s) (hs : s.status = .running) (hpc : s.pc + 4 ≤ s.len)
    (hd : d < s.len) (hr : p.fits r = true) : Inv p (advance (s.setCell d r)) where
  memCanonical := Memory.wf_write d r hi.memCanonical
  memInBounds c hc := by
    rcases Memory.mem_write s.mem d r hc with rfl | hc
    · exact hd
    · exact hi.memInBounds c hc
  memFits c hc := by
    rcases Memory.mem_write s.mem d r hc with rfl | hc
    · exact hr
    · exact hi.memFits c hc
  lenHeld := hi.lenHeld
  pcInRange := hpc
  pcAligned := Nat.dvd_add hi.pcAligned (Nat.dvd_refl 4)
  runningRecord _ := hi.runningRecord hs
  haltedRecord := by simp [hs]
  failedRecord := by simp [hs]

end

/-- Settles O38, by the three ways a step from Running can end; a terminal state is left as it is. -/
theorem anyWidthStepKeepsTheInvariant : Obligations.AnyWidthStepKeepsTheInvariant := by
  unfold Obligations.AnyWidthStepKeepsTheInvariant
  intro p s t hi h
  by_cases hs : s.status = .running
  · rcases stepAt_cases hs h with ⟨e, he, rfl⟩ | ⟨f, -, -, hsafe, rfl⟩ | ⟨hpc, hop, rfl⟩
    · exact hi.raise_firstFailure hs he
    · obtain ⟨hlast, -, -, hfits, hdst⟩ := arithmeticFailure_eq_none.mp hsafe
      exact hi.advance_setCell hs (by omega) hdst hfits
    · exact hi.halt_cell_zero hs hpc hop
  · rw [stepAt_of_terminal p hs] at h
    cases h
    exact hi

end Sys2Proof.Machine

namespace Sys2Proof.Machine

/-! ### What a step does to PC -/

/-- R22, R88: a step either completes an ADD or MULTIPLY, which moves PC on by exactly 4 and not past LEN, or keeps PC and
does not end in Running. LEN is kept by both. -/
theorem stepAt_pc_cases {p : Params} {s t : State} (h : stepAt p s = .next t) :
    t.len = s.len ∧ ((s.status = .running ∧ t.status = .running ∧ t.pc = s.pc + 4 ∧ s.pc + 4 ≤ s.len) ∨
      (t.status ≠ .running ∧ t.pc = s.pc)) := by
  by_cases hs : s.status = .running
  · rcases stepAt_cases hs h with ⟨e, -, rfl⟩ | ⟨f, -, -, hsafe, rfl⟩ | ⟨-, -, rfl⟩
    · simp
    · obtain ⟨hlast, -⟩ := arithmeticFailure_eq_none.mp hsafe
      exact ⟨rfl, .inl ⟨hs, hs, rfl, hlast⟩⟩
    · simp
  · rw [stepAt_of_terminal p hs] at h
    cases h
    exact ⟨rfl, .inr ⟨hs, rfl⟩⟩

/-- R23 (b), (c): a step carries the count of completed instructions along. -/
theorem PcCounts.after_step {p : Params} {n : Nat} {s t : State} (hc : PcCounts n s) (h : stepAt p s = .next t) :
    PcCounts (if t.status = .running then n + 1 else n) t := by
  obtain ⟨hpc, hle⟩ := hc
  obtain ⟨hlen, ⟨-, hrun, hnext, hbound⟩ | ⟨hend, hkept⟩⟩ := stepAt_pc_cases h
  · rw [if_pos hrun]
    exact ⟨by omega, by omega⟩
  · rw [if_neg hend]
    exact ⟨by omega, by omega⟩

/-- A run carries the count along by the number of its completed steps. -/
theorem PcCounts.after_run {p : Params} {k n : Nat} {s t : State} (hc : PcCounts n s) (h : runAt p k s = .next t) :
    PcCounts (n + completedSteps p k s) t := by
  induction k generalizing n s with
  | zero => cases h; exact hc
  | succ k ih =>
    obtain ⟨u, hu⟩ := stepAt_next p s
    rw [runAt_succ k hu] at h
    have hrest := ih (hc.after_step hu) h
    rw [completedSteps_succ k hu, ← Nat.add_assoc]
    simpa [apply_ite (n + ·)] using hrest

theorem pcCounts_ofImage (img : List Nat) : PcCounts 0 (State.ofImage img) := ⟨rfl, Nat.zero_le _⟩

/-! ### The invariant of a launch and of a run -/

/-- R34, R151: the state of an admissible image meets the invariant. -/
theorem Inv.ofImage {p : Params} {img : List Nat} (h : admissible p img = true) : Inv p (State.ofImage img) := by
  obtain ⟨hlen, hfits⟩ := (Bool.and_eq_true _ _).mp h
  exact {
    memCanonical := Memory.wf_ofImageFrom 0 img
    memInBounds := fun c hc => by
      obtain ⟨-, hlt, -⟩ := Memory.mem_ofImageFrom hc
      simpa using hlt
    memFits := fun c hc => by
      obtain ⟨-, -, hmem, -⟩ := Memory.mem_ofImageFrom hc
      exact List.all_eq_true.mp hfits _ hmem
    lenHeld := hlen
    pcInRange := Nat.zero_le _
    pcAligned := Nat.dvd_zero 4
    runningRecord := fun _ => ⟨rfl, rfl, rfl⟩
    haltedRecord := by simp
    failedRecord := by simp }

/-- What every step keeps, a run keeps. -/
theorem runAt_keeps {p : Params} {P : State → Prop} (hstep : ∀ s t, P s → stepAt p s = .next t → P t)
    {k : Nat} {s t : State} (hs : P s) (h : runAt p k s = .next t) : P t := by
  induction k generalizing s with
  | zero => cases h; exact hs
  | succ k ih =>
    obtain ⟨u, hu⟩ := stepAt_next p s
    rw [runAt_succ k hu] at h
    exact ih (hstep s u hs hu) h

/-- Every state of a launched run meets the invariant. -/
theorem Inv.of_launch_run {p : Params} {img : List Nat} {k : Nat} {s t : State} (hl : launch p img = .next s)
    (h : runAt p k s = .next t) : Inv p t := by
  obtain ⟨hadm, rfl⟩ := launch_eq_next_iff.mp hl
  exact runAt_keeps (anyWidthStepKeepsTheInvariant p) (Inv.ofImage hadm) h

/-! ### The widths under the invariant -/

/-- R28, R134: an ADD or MULTIPLY that fails names an operand cell's address, a value of a cell, or PC. -/
theorem arithmeticFailure_info {p : Params} {f : Nat → Nat → Nat} {s : State} {e : Failure}
    (h : arithmeticFailure p f s = some e) : e.info ≤ s.pc + 3 ∨ ∃ a, e.info = s.cell a := by
  unfold arithmeticFailure at h
  split_ifs at h <;> cases h
  · exact .inl (Nat.add_le_add_left (by decide) _)
  · exact .inl (Nat.add_le_add_left (by decide) _)
  · exact .inl (Nat.le_refl _)
  · exact .inr ⟨_, rfl⟩
  · exact .inr ⟨_, rfl⟩
  · exact .inl (Nat.le_add_right _ _)
  · exact .inr ⟨_, rfl⟩

/-- R28, R134: the INFO of a first failure is PC, an address within 3 of the opcode cell at PC, or a value of a cell. -/
theorem firstFailure_info {p : Params} {s : State} {e : Failure} (h : firstFailure p s = some e) :
    e.info = s.pc ∨ (s.pc < s.len ∧ e.info ≤ s.pc + 3) ∨ ∃ a, e.info = s.cell a := by
  unfold firstFailure at h
  split_ifs at h with hpc h1 h2 h99
  · cases h; exact .inl rfl
  · exact .inr ((arithmeticFailure_info h).imp_left fun hle => ⟨Nat.lt_of_not_le hpc, hle⟩)
  · exact .inr ((arithmeticFailure_info h).imp_left fun hle => ⟨Nat.lt_of_not_le hpc, hle⟩)
  · cases h; exact .inr (.inr ⟨_, rfl⟩)

/-- A memory of the core has at most `2^XLEN - 4` cells. -/
theorem core_holds_iff (n : Nat) : Config.core.holds n = true ↔ n ≤ 2 ^ Config.xlen - 4 := decide_eq_true_iff

section
variable {s : State} (hi : Inv Config.core s)
include hi

theorem Inv.cell_lt (a : Nat) : s.cell a < 2 ^ Config.xlen := by
  rcases Memory.read_zero_or_listed s.mem a with h0 | hmem
  · rw [State.cell, h0]; decide
  · exact of_decide_eq_true (hi.memFits _ hmem)

/-- R24 gives no value to a cell beyond LEN; none is listed. -/
theorem Inv.cell_beyond {a : Nat} (ha : s.len ≤ a) : s.cell a = 0 :=
  Memory.read_eq_zero_of_unlisted _ _ fun c hc => by
    have := hi.memInBounds c hc
    omega

theorem Inv.pc_lt : s.pc < 2 ^ Config.xlen := by
  have hlen := (core_holds_iff _).mp hi.lenHeld
  have hpc := hi.pcInRange
  rw [two_pow_xlen] at *
  omega

/-- R23 (e). -/
theorem Inv.pc_add_four_le (hpc : s.pc < s.len) : s.pc + 4 ≤ 2 ^ Config.xlen - 1 := by
  have hlen := (core_holds_iff _).mp hi.lenHeld
  rw [two_pow_xlen] at *
  omega

theorem Inv.firstFailure_info_lt {e : Failure} (he : firstFailure Config.core s = some e) :
    e.info < 2 ^ Config.xlen := by
  rcases firstFailure_info he with hinfo | ⟨hpc, hinfo⟩ | ⟨a, hinfo⟩
  · rw [hinfo]; exact hi.pc_lt
  · have := hi.pc_add_four_le hpc
    omega
  · rw [hinfo]; exact hi.cell_lt a

theorem Inv.info_lt : s.info < 2 ^ Config.xlen := by
  cases hs : s.status with
  | running =>
    obtain ⟨-, hinfo, -⟩ := hi.runningRecord hs
    rw [hinfo]; decide
  | halted =>
    obtain ⟨-, hinfo, -⟩ := hi.haltedRecord hs
    rw [hinfo]; decide
  | failed =>
    obtain ⟨-, e, he, -, hinfo⟩ := hi.failedRecord hs
    rw [hinfo]; exact hi.firstFailure_info_lt he

theorem Inv.result_lt : s.result < 2 ^ Config.xlen := by
  cases hs : s.status with
  | running =>
    obtain ⟨-, -, hresult⟩ := hi.runningRecord hs
    rw [hresult]; decide
  | halted =>
    obtain ⟨-, -, hresult, -⟩ := hi.haltedRecord hs
    rw [hresult]; exact hi.cell_lt 0
  | failed =>
    obtain ⟨hresult, -⟩ := hi.failedRecord hs
    rw [hresult]; decide

end

/-! ### The obligations of 10_state.md -/

/-- Settles O37: the core's step is the step of the machine at the core's parameters. -/
theorem stepKeepsTheInvariant : Obligations.StepKeepsTheInvariant := by
  unfold Obligations.StepKeepsTheInvariant
  intro s t hi h
  rw [← stepAt_core] at h
  exact anyWidthStepKeepsTheInvariant Config.core s t hi h

/-- Settles O50, by the two things a step can do to PC. -/
theorem stepKeepsThePcCount : Obligations.StepKeepsThePcCount := by
  unfold Obligations.StepKeepsThePcCount
  intro n s t hc h
  rw [← stepAt_core] at h
  exact hc.after_step h

/-- Settles O36: a launch that is not refused gives the state of an admissible image. -/
theorem launchEstablishesTheInvariant : Obligations.LaunchEstablishesTheInvariant := by
  unfold Obligations.LaunchEstablishesTheInvariant
  intro p img s h
  obtain ⟨hadm, rfl⟩ := launch_eq_next_iff.mp h
  exact Inv.ofImage hadm

/-- Settles O39, one bound per element of the state. -/
theorem registersFitTheirWidths : Obligations.RegistersFitTheirWidths := by
  unfold Obligations.RegistersFitTheirWidths
  intro s hi
  exact ⟨hi.cell_lt, hi.pc_lt, hi.pc_add_four_le, hi.info_lt, hi.result_lt, fun _ => hi.cell_beyond⟩

/-- Settles O40: the count of completed steps is carried along the run from 0 at the launch, and the invariant bounds PC. -/
theorem pcInvariantsOfARun : Obligations.PcInvariantsOfARun := by
  unfold Obligations.PcInvariantsOfARun
  intro img k s t hl hrun
  have hi : Inv Config.core t := Inv.of_launch_run hl hrun
  have hcount : PcCounts (completedSteps Config.core k s) t := by
    obtain ⟨-, rfl⟩ := launch_eq_next_iff.mp hl
    simpa using (pcCounts_ofImage img).after_run hrun
  obtain ⟨hpc, hle⟩ := hcount
  refine ⟨hi.pcAligned, hle, hpc, hi.pc_add_four_le, fun u hu => ?_⟩
  rw [← stepAt_core] at hu
  obtain ⟨-, ⟨hs, hs', hnext, -⟩ | ⟨hend, hkept⟩⟩ := stepAt_pc_cases hu
  · exact .inl ⟨hnext, hs, hs'⟩
  · exact .inr ⟨hkept, hend⟩

/-- Settles O35: reset is the launch of the empty image, which is admissible. -/
theorem resetMeetsTheInvariant : Obligations.ResetMeetsTheInvariant := by
  unfold Obligations.ResetMeetsTheInvariant
  rw [reset_eq_ofImage]
  exact Inv.ofImage (by decide)

end Sys2Proof.Machine

namespace Sys2Proof.Machine

/-! ### The two primitives, both ways (R41, R42, R44) -/

theorem memRead_error_iff {s : State} {a : Nat} {e : Failure} :
    memRead s a = .error e ↔ s.len ≤ a ∧ e = .outOfBounds a := by
  by_cases h : s.len ≤ a
  · simp [memRead_of_le h, h, eq_comm]
  · simp [memRead_of_lt (Nat.lt_of_not_le h), h]

theorem memWrite_ok_iff {s t : State} {a v : Nat} : memWrite s a v = .ok t ↔ a < s.len ∧ t = s.setCell a v := by
  by_cases h : a < s.len
  · simp [memWrite_of_lt v h, h, eq_comm]
  · simp [memWrite_of_le v (Nat.le_of_not_lt h), h]

theorem memWrite_error_iff {s : State} {a v : Nat} {e : Failure} :
    memWrite s a v = .error e ↔ s.len ≤ a ∧ e = .outOfBounds a := by
  by_cases h : s.len ≤ a
  · simp [memWrite_of_le v h, h, eq_comm]
  · simp [memWrite_of_lt v (Nat.lt_of_not_le h), h]

theorem setCell_sameRegisters (s : State) (a v : Nat) : SameRegisters s (s.setCell a v) :=
  ⟨rfl, rfl, rfl, rfl, rfl, rfl⟩

/-- R50: an ADD or MULTIPLY whose destination lies beyond the end fails, on that or on an earlier check. -/
theorem settle_threeAddress_of_dst_le (p : Params) (f : Nat → Nat → Nat) (a b : Nat) {d : Nat} {s : State}
    (hd : s.len ≤ d) : ∃ e, settle s (threeAddress p f a b d s) = .next (raise e s) := by
  rw [settle_threeAddress, if_pos hd]
  split_ifs
  all_goals exact ⟨_, rfl⟩

/-! ### A whole instruction under PC, and one cut off by the end (R81, R123) -/

theorem readOperands_of_lt {s : State} (mk : Nat → Nat → Nat → Instr) (h : s.pc + 3 < s.len) :
    readOperands (operandCell s) mk = .ok (mk (s.cell (s.pc + 1)) (s.cell (s.pc + 2)) (s.cell (s.pc + 3))) := by
  rw [readOperands_operandCell, if_neg (by omega), if_neg (by omega), if_neg (by omega)]

theorem step_of_fetch_ok {s : State} {i : Instr} (hs : s.status = .running) (hf : fetch s = .ok i) :
    step s = exec i s := by
  rw [step, sequence_of_running _ hs, hf]

theorem step_eq_exec_add {s : State} (hs : s.status = .running) (h : s.pc + 3 < s.len) (hop : s.cell s.pc = 1) :
    step s = exec (.add (s.cell (s.pc + 1)) (s.cell (s.pc + 2)) (s.cell (s.pc + 3))) s := by
  apply step_of_fetch_ok hs
  rw [fetch_of_lt (by omega), hop]
  exact readOperands_of_lt .add h

theorem step_eq_exec_multiply {s : State} (hs : s.status = .running) (h : s.pc + 3 < s.len)
    (hop : s.cell s.pc = 2) :
    step s = exec (.multiply (s.cell (s.pc + 1)) (s.cell (s.pc + 2)) (s.cell (s.pc + 3))) s := by
  apply step_of_fetch_ok hs
  rw [fetch_of_lt (by omega), hop]
  exact readOperands_of_lt .multiply h

/-- The first operand cell that is missing is the one at LEN. -/
theorem arithmeticStep_of_cut_off (p : Params) (f : Nat → Nat → Nat) {s : State} (hpc : s.pc < s.len)
    (hend : s.len ≤ s.pc + 3) : arithmeticStep p f s = raise (.outOfBounds s.len) s := by
  have hfail : arithmeticFailure p f s = some (.outOfBounds s.len) := by
    unfold arithmeticFailure
    split_ifs with h1 h2
    · rw [show s.pc + 1 = s.len by omega]
    · rw [show s.pc + 2 = s.len by omega]
    · rw [show s.pc + 3 = s.len by omega]
  simp [arithmeticStep, hfail]

theorem arithmeticAt_exists_iff {s : State} : (∃ f, ArithmeticAt s f) ↔ s.cell s.pc = 1 ∨ s.cell s.pc = 2 := by
  simp [ArithmeticAt, exists_or]

/-- Under PC stands an ADD or MULTIPLY, a STOP, or no opcode (R63). -/
theorem opcode_cases (s : State) : (∃ f, ArithmeticAt s f) ∨ s.cell s.pc = 99 ∨
    (s.cell s.pc ≠ 1 ∧ s.cell s.pc ≠ 2 ∧ s.cell s.pc ≠ 99) := by
  rw [arithmeticAt_exists_iff]
  omega

theorem stepAt_arithmetic (p : Params) {f : Nat → Nat → Nat} {s : State} (hs : s.status = .running)
    (hpc : s.pc < s.len) (hf : ArithmeticAt s f) : stepAt p s = .next (arithmeticStep p f s) := by
  rcases hf with ⟨hop, rfl⟩ | ⟨hop, rfl⟩
  · exact stepAt_add p hs hpc hop
  · exact stepAt_multiply p hs hpc hop

theorem step_of_cut_off {s : State} (hs : s.status = .running) (hpc : s.pc < s.len) (hend : s.len ≤ s.pc + 3)
    (hop : s.cell s.pc = 1 ∨ s.cell s.pc = 2) : step s = .next (raise (.outOfBounds s.len) s) := by
  obtain ⟨f, hf⟩ := arithmeticAt_exists_iff.mpr hop
  rw [← stepAt_core, stepAt_arithmetic _ hs hpc hf, arithmeticStep_of_cut_off _ _ hpc hend]

/-- A step that stays in Running completed the ADD or MULTIPLY under PC. -/
theorem stepAt_completes_of_running {p : Params} {s t : State} (hs : s.status = .running)
    (h : stepAt p s = .next t) (ht : t.status = .running) :
    ∃ f, ArithmeticAt s f ∧ t = advance (s.setCell (s.cell (s.pc + 3))
      (f (s.cell (s.cell (s.pc + 1))) (s.cell (s.cell (s.pc + 2))))) := by
  rcases stepAt_cases hs h with ⟨e, -, rfl⟩ | ⟨f, hf, -, -, heq⟩ | ⟨-, -, rfl⟩
  · cases ht
  · exact ⟨f, hf, heq⟩
  · cases ht

/-! ### The trace of each kind of step (R92) -/

theorem readThen_of_lt {s : State} {a : Nat} (rest : List Access) (h : a < s.len) :
    readThen s a rest = .read a :: rest := by
  simp [readThen, h]

theorem readThen_of_le {s : State} {a : Nat} (rest : List Access) (h : s.len ≤ a) :
    readThen s a rest = [.read a] := by
  simp [readThen, h]

theorem stepTrace_of_terminal (p : Params) {s : State} (h : s.status ≠ .running) : stepTrace p s = [] := by
  simp [stepTrace, State.terminal, h]

theorem stepTrace_beyond (p : Params) {s : State} (hs : s.status = .running) (hpc : s.len ≤ s.pc) :
    stepTrace p s = [.read s.pc] := by
  simp [stepTrace, State.terminal, hs, readThen_of_le _ hpc]

theorem stepTrace_arithmetic (p : Params) {f : Nat → Nat → Nat} {s : State} (hs : s.status = .running)
    (hpc : s.pc < s.len) (hf : ArithmeticAt s f) : stepTrace p s = .read s.pc :: arithmeticTrace p f s := by
  rcases hf with ⟨hop, rfl⟩ | ⟨hop, rfl⟩
  all_goals simp [stepTrace, State.terminal, hs, readThen_of_lt _ hpc, hop]

theorem stepTrace_stop (p : Params) {s : State} (hs : s.status = .running) (hpc : s.pc < s.len)
    (hop : s.cell s.pc = 99) : stepTrace p s = [.read s.pc, .read 0] := by
  have h0 : 0 < s.len := by omega
  simp [stepTrace, State.terminal, hs, readThen_of_lt _ hpc, readThen_of_lt _ h0, hop]

theorem stepTrace_unknown (p : Params) {s : State} (hs : s.status = .running) (hpc : s.pc < s.len)
    (h1 : s.cell s.pc ≠ 1) (h2 : s.cell s.pc ≠ 2) (h99 : s.cell s.pc ≠ 99) : stepTrace p s = [.read s.pc] := by
  simp [stepTrace, State.terminal, hs, readThen_of_lt _ hpc, decodeOpcode_of_unknown h1 h2 h99]

/-! ### Two states that agree on what a trace reads (R43, R47) -/

/-- `s` and `t` hold the same value in every cell that `trace` reads. -/
def AgreeOnReads (s t : State) (trace : List Access) : Prop := ∀ a, .read a ∈ trace → s.cell a = t.cell a

/-- What was done from `s` and from `t` is the same: equal registers after it, and each cell was given one value in both
or was left alone in both. -/
def SameEffect (s t s' t' : State) : Prop :=
  SameRegisters s' t' ∧ ∀ a, s'.cell a = t'.cell a ∨ (s'.cell a = s.cell a ∧ t'.cell a = t.cell a)

section
variable {s t : State}

theorem agreeOnReads_cons {a : Nat} {rest : List Access} :
    AgreeOnReads s t (.read a :: rest) ↔ s.cell a = t.cell a ∧ AgreeOnReads s t rest := by
  simp [AgreeOnReads]

/-- Agreement on a read is agreement on its cell and, where the read is valid, on what comes after it. -/
theorem AgreeOnReads.of_readThen {a : Nat} {rest : List Access} (h : AgreeOnReads s t (readThen s a rest)) :
    s.cell a = t.cell a ∧ (¬ s.len ≤ a → AgreeOnReads s t rest) := by
  refine ⟨h a (by simp [readThen]), fun ha => ?_⟩
  rw [readThen_of_lt rest (Nat.lt_of_not_le ha)] at h
  exact (agreeOnReads_cons.mp h).2

variable (hreg : SameRegisters s t)
include hreg

theorem SameEffect.unchanged : SameEffect s t s t := ⟨hreg, fun _ => .inr ⟨rfl, rfl⟩⟩

theorem SameEffect.raise (e : Failure) : SameEffect s t (raise e s) (raise e t) := by
  obtain ⟨hlen, hpc, -, -, -, hresult⟩ := hreg
  exact ⟨⟨hlen, hpc, rfl, rfl, rfl, hresult⟩, fun _ => .inr ⟨rfl, rfl⟩⟩

theorem SameEffect.halt (v : Nat) : SameEffect s t (halt v s) (halt v t) := by
  obtain ⟨hlen, hpc, -, hcause, hinfo, -⟩ := hreg
  exact ⟨⟨hlen, hpc, rfl, hcause, hinfo, rfl⟩, fun _ => .inr ⟨rfl, rfl⟩⟩

theorem SameEffect.advance_setCell (d r : Nat) :
    SameEffect s t (advance (s.setCell d r)) (advance (t.setCell d r)) := by
  obtain ⟨hlen, hpc, hrest⟩ := hreg
  refine ⟨⟨hlen, congrArg (· + 4) hpc, hrest⟩, fun a => ?_⟩
  by_cases ha : a = d
  · subst ha; simp
  · simp [setCell_cell_other _ r ha]

/-- An ADD or MULTIPLY makes the same accesses and has the same effect in two states that agree on what it reads: both
stop at the same read beyond LEN, or all they have read is equal. -/
theorem arithmetic_sameEffect {p : Params} {f : Nat → Nat → Nat}
    (hagree : AgreeOnReads s t (arithmeticTrace p f s)) :
    arithmeticTrace p f s = arithmeticTrace p f t ∧
      SameEffect s t (arithmeticStep p f s) (arithmeticStep p f t) := by
  have hfail := SameEffect.raise hreg
  have ⟨hlen, hpc, _⟩ := hreg
  obtain ⟨h1, hagree⟩ := hagree.of_readThen
  simp only [arithmeticTrace, arithmeticStep, arithmeticFailure, readThen, ← hlen, ← hpc, ← h1]
  by_cases l1 : s.len ≤ s.pc + 1
  · simp [l1, hfail]
  obtain ⟨h2, hagree⟩ := (hagree l1).of_readThen
  simp only [l1, ← h2]
  by_cases l2 : s.len ≤ s.pc + 2
  · simp [l2, hfail]
  obtain ⟨h3, hagree⟩ := (hagree l2).of_readThen
  simp only [l2, ← h3]
  by_cases l3 : s.len ≤ s.pc + 3
  · simp [l3, hfail]
  obtain ⟨ha, hagree⟩ := (hagree l3).of_readThen
  simp only [l3, ← ha]
  by_cases la : s.len ≤ s.cell (s.pc + 1)
  · simp [la, hfail]
  obtain ⟨hb, -⟩ := (hagree la).of_readThen
  simp only [la, ← hb, true_and]
  split
  · exact hfail _
  · exact SameEffect.advance_setCell hreg _ _

/-- R43, R47, R91: a step depends on no cell but those its trace reads, at every XLEN and MEMCAP. -/
theorem stepAt_sameEffect {p : Params} (hagree : AgreeOnReads s t (stepTrace p s)) :
    stepTrace p s = stepTrace p t ∧
      ∃ s' t', stepAt p s = .next s' ∧ stepAt p t = .next t' ∧ SameEffect s t s' t' := by
  have ⟨hlen, hpc, hstatus, _⟩ := hreg
  by_cases hs : s.status = .running
  case neg =>
    have ht : t.status ≠ .running := hstatus ▸ hs
    rw [stepTrace_of_terminal p hs, stepTrace_of_terminal p ht]
    exact ⟨rfl, s, t, stepAt_of_terminal p hs, stepAt_of_terminal p ht, .unchanged hreg⟩
  have ht : t.status = .running := hstatus ▸ hs
  by_cases hend : s.len ≤ s.pc
  · have hend' : t.len ≤ t.pc := by omega
    have hstep := stepAt_beyond p ht hend'
    rw [← hpc] at hstep
    rw [stepTrace_beyond p hs hend, stepTrace_beyond p ht hend', hpc]
    exact ⟨rfl, _, _, stepAt_beyond p hs hend, hstep, .raise hreg _⟩
  have hlt : s.pc < s.len := Nat.lt_of_not_le hend
  have hlt' : t.pc < t.len := by omega
  have hop : t.cell t.pc = s.cell s.pc := by
    rw [← hpc]
    refine (hagree s.pc ?_).symm
    simp [stepTrace, State.terminal, hs, readThen]
  rcases opcode_cases s with ⟨f, hf⟩ | h99 | ⟨h1, h2, h99⟩
  · have hf' : ArithmeticAt t f := by simpa only [ArithmeticAt, hop] using hf
    rw [stepTrace_arithmetic p hs hlt hf] at hagree ⊢
    obtain ⟨htrace, heffect⟩ := arithmetic_sameEffect hreg (agreeOnReads_cons.mp hagree).2
    rw [stepTrace_arithmetic p ht hlt' hf', hpc, htrace]
    exact ⟨rfl, _, _, stepAt_arithmetic p hs hlt hf, stepAt_arithmetic p ht hlt' hf', heffect⟩
  · have h99' := hop.trans h99
    rw [stepTrace_stop p hs hlt h99] at hagree ⊢
    have hzero : t.cell 0 = s.cell 0 := (hagree 0 (by simp)).symm
    have hstep := stepAt_stop p ht hlt' h99'
    rw [hzero] at hstep
    rw [stepTrace_stop p ht hlt' h99', hpc]
    exact ⟨rfl, _, _, stepAt_stop p hs hlt h99, hstep, .halt hreg _⟩
  · have h1' : t.cell t.pc ≠ 1 := hop ▸ h1
    have h2' : t.cell t.pc ≠ 2 := hop ▸ h2
    have h99' : t.cell t.pc ≠ 99 := hop ▸ h99
    have hstep := stepAt_unknown p ht hlt' h1' h2' h99'
    rw [hop] at hstep
    rw [stepTrace_unknown p hs hlt h1 h2 h99, stepTrace_unknown p ht hlt' h1' h2' h99', hpc]
    exact ⟨rfl, _, _, stepAt_unknown p hs hlt h1 h2 h99, hstep, .raise hreg _⟩

end

/-! ### The obligations of 20_memory.md -/

/-- Settles O6: each primitive's two answers as equivalences. -/
theorem addressValidExactlyBelowLen : Obligations.AddressValidExactlyBelowLen := by
  unfold Obligations.AddressValidExactlyBelowLen
  intro s a v
  exact ⟨by simp [memRead_ok_iff], by simp [memWrite_ok_iff], by simp [memRead_error_iff],
    by simp [memWrite_error_iff]⟩

/-- Settles O5: a write inside LEN is `setCell`, whose cells are read back by the laws of memory. -/
theorem memWriteSetsExactlyOneCell : Obligations.MemWriteSetsExactlyOneCell := by
  unfold Obligations.MemWriteSetsExactlyOneCell
  intro s a v
  refine ⟨fun h => ?_, memWrite_of_le v⟩
  exact ⟨_, memWrite_of_lt v h, setCell_cell_same s a v, fun _ => setCell_cell_other s v, setCell_sameRegisters s a v⟩

/-- Settles O23: no end of a step writes LEN, and a destination beyond the end leaves only the failures. -/
theorem lenIsConstant : Obligations.LenIsConstant := by
  unfold Obligations.LenIsConstant
  refine ⟨fun s t h => ?_, fun s a b d hd => ⟨?_, ?_⟩⟩
  · rw [← stepAt_core] at h
    exact (stepAt_pc_cases h).1
  · obtain ⟨e, he⟩ := settle_threeAddress_of_dst_le Config.core (fun a b => a + b) a b hd
    exact ⟨_, he, rfl, rfl⟩
  · obtain ⟨e, he⟩ := settle_threeAddress_of_dst_le Config.core (fun a b => a * b) a b hd
    exact ⟨_, he, rfl, rfl⟩

/-- Settles O31: the step that completed put the value under the new PC, and the next step is the one of that opcode. -/
theorem nextFetchSeesTheWrite : Obligations.NextFetchSeesTheWrite := by
  unfold Obligations.NextFetchSeesTheWrite
  intro s t r hs hlt h ht hdst hr
  rw [← stepAt_core] at h
  obtain ⟨f, hf, heq⟩ := stepAt_completes_of_running hs h ht
  have hvalue : r = f (s.cell (s.cell (s.pc + 1))) (s.cell (s.cell (s.pc + 2))) := by
    rw [← hr, heq, hdst]; simp
  have hpc : t.pc = s.pc + 4 := by rw [heq]; rfl
  have hlen : t.len = s.len := by rw [heq]; rfl
  have hlt' : t.pc < t.len := by omega
  have hop : t.cell t.pc = r := by rw [hpc, hr]
  refine ⟨?_, fun h99 => ?_, fun h1 h2 h99 => ?_, fun h1 hin => ?_, fun h2 hin => ?_, fun h12 hout => ?_⟩
  · exact hf.imp (fun ⟨hop, hadd⟩ => ⟨hop, by rw [hvalue, hadd]⟩) fun ⟨hop, hmul⟩ => ⟨hop, by rw [hvalue, hmul]⟩
  · rw [← stepAt_core]
    exact ⟨_, stepAt_stop _ ht hlt' (hop.trans h99), rfl, rfl⟩
  · subst hop
    rw [← stepAt_core]
    exact stepAt_unknown _ ht hlt' h1 h2 h99
  · simpa [hpc] using step_eq_exec_add ht (by omega) (hop.trans h1)
  · simpa [hpc] using step_eq_exec_multiply ht (by omega) (hop.trans h2)
  · rw [← hlen]
    exact step_of_cut_off ht hlt' (by omega) (h12.imp hop.trans hop.trans)

/-- Settles O34 at the core's parameters. -/
theorem stepReadsOnlyItsTrace : Obligations.StepReadsOnlyItsTrace := by
  unfold Obligations.StepReadsOnlyItsTrace
  intro s t hreg hagree
  rw [← stepAt_core]
  exact stepAt_sameEffect hreg hagree

end Sys2Proof.Machine

namespace Sys2Proof

/-! ### Cells and the number they are packed into (R10, R61) -/

theorem cellsOfBits_lt {n k w c : Nat} (h : c ∈ cellsOfBits n k w) : c < 2 ^ n := by
  induction k generalizing w with
  | zero => cases h
  | succ k ih =>
    rcases List.mem_cons.mp h with rfl | h
    · exact Nat.mod_lt _ (Nat.two_pow_pos n)
    · exact ih h

/-- The cells cut out of a packed number begin with the cells that were packed. -/
theorem prefix_cellsOfBits_packCells {n k : Nat} {cs : List Nat} (hfit : ∀ c ∈ cs, c < 2 ^ n)
    (hlen : cs.length ≤ k) : cs <+: cellsOfBits n k (packCells n cs) := by
  induction cs generalizing k with
  | nil => exact List.nil_prefix
  | cons c cs ih =>
    obtain ⟨hc, hcs⟩ := List.forall_mem_cons.mp hfit
    cases k with
    | zero => simp at hlen
    | succ k =>
      have hlow : (c + 2 ^ n * packCells n cs) % 2 ^ n = c := by
        rw [Nat.add_mul_mod_self_left, Nat.mod_eq_of_lt hc]
      have hhigh : (c + 2 ^ n * packCells n cs) / 2 ^ n = packCells n cs := by
        rw [Nat.add_mul_div_left _ _ (Nat.two_pow_pos n), Nat.div_eq_of_lt hc, Nat.zero_add]
      rw [packCells, cellsOfBits, hlow, hhigh]
      exact List.cons_prefix_cons.mpr ⟨rfl, ih hcs (Nat.le_of_succ_le_succ hlen)⟩

/-- The first cells of a number pack to its low bits. -/
theorem packCells_of_prefix {n k w : Nat} {cs : List Nat} (h : cs <+: cellsOfBits n k w) :
    packCells n cs = w % 2 ^ (n * cs.length) := by
  induction cs generalizing k w with
  | nil => simp [packCells, Nat.mod_one]
  | cons c cs ih =>
    cases k with
    | zero => simp [cellsOfBits] at h
    | succ k =>
      obtain ⟨rfl, htail⟩ := List.cons_prefix_cons.mp h
      rw [packCells, ih htail, List.length_cons, Nat.mul_succ, Nat.add_comm (n * _), Nat.pow_add, Nat.mod_mul]

/-! ### The decoder on a list of cells (R60 to R66) -/

theorem cellRoundTrip (i : Instr) : Laws.CellRoundTrip.Statement i := by
  cases i with
  | add a b d => exact Laws.CellRoundTrip.add a b d
  | multiply a b d => exact Laws.CellRoundTrip.multiply a b d
  | stop => exact Laws.CellRoundTrip.stop

@[simp] theorem encode_length (i : Instr) : (encode i).length = i.length := (cellRoundTrip i).1

theorem Instr.length_le_longestLength (i : Instr) : i.length ≤ longestLength := by
  cases i <;> simp [Instr.length, longestLength]

/-- R65: well-formed means that every cell of the encoding holds a value a cell can hold. -/
theorem Instr.wellFormed_iff (i : Instr) : i.wellFormed = true ↔ ∀ c ∈ encode i, c < 2 ^ Config.xlen := by
  cases i <;> simp [Instr.wellFormed, Instr.wellFormedAt, encode, Opcode.value, and_assoc, Machine.two_pow_xlen]

/-- A number whose first cells are the encoding has the instruction's word as its low bits. -/
theorem tableWord_of_prefix {i : Instr} {k w : Nat} (h : encode i <+: cellsOfBits Config.xlen k w) :
    tableWord i = w % 2 ^ tableBits i := by
  rw [tableWord, packCells_of_prefix h, encode_length, tableBits]

theorem decodeOpcode_eq_none_iff (v : Nat) : decodeOpcode v = none ↔ v ≠ 1 ∧ v ≠ 2 ∧ v ≠ 99 := by
  refine ⟨fun h => ⟨?_, ?_, ?_⟩, fun ⟨h1, h2, h99⟩ => Machine.decodeOpcode_of_unknown h1 h2 h99⟩
  all_goals rintro rfl; cases h

theorem decode_of_unknown {v : Nat} (rest : List Nat) (h : decodeOpcode v = none) :
    decode (v :: rest) = .error (.unknownOpcode v) := by
  simp [decode, decodeFrom, cellOf, h, bind, Except.bind]

/-- The operand cells of format Q are the three after the opcode cell, or one of them is missing. -/
theorem readOperands_cellOf_cases (v : Nat) (rest : List Nat) (mk : Nat → Nat → Nat → Instr) :
    (∃ a b d tail, rest = a :: b :: d :: tail ∧ readOperands (cellOf (v :: rest)) mk = .ok (mk a b d)) ∨
      ∃ k, readOperands (cellOf (v :: rest)) mk = .error (.missingCell k) := by
  rcases rest with _ | ⟨a, _ | ⟨b, _ | ⟨d, tail⟩⟩⟩
  · exact .inr ⟨1, rfl⟩
  · exact .inr ⟨2, rfl⟩
  · exact .inr ⟨3, rfl⟩
  · exact .inl ⟨a, b, d, tail, rfl, rfl⟩

/-- Everything the decoder can answer where there is an opcode cell. -/
theorem decode_cons_cases (v : Nat) (rest : List Nat) :
    (∃ i, encode i <+: v :: rest ∧ decode (v :: rest) = .ok i) ∨
      (∃ k, decode (v :: rest) = .error (.missingCell k)) ∨
      (decodeOpcode v = none ∧ decode (v :: rest) = .error (.unknownOpcode v)) := by
  cases hop : decodeOpcode v with
  | none => exact .inr (.inr ⟨rfl, decode_of_unknown rest hop⟩)
  | some op =>
    obtain rfl := (Machine.decodeOpcode_eq_some_iff v op).mp hop
    cases op with
    | add =>
      rcases readOperands_cellOf_cases 1 rest .add with ⟨a, b, d, tail, rfl, hread⟩ | ⟨k, hread⟩
      · exact .inl ⟨_, ⟨tail, rfl⟩, hread⟩
      · exact .inr (.inl ⟨k, hread⟩)
    | multiply =>
      rcases readOperands_cellOf_cases 2 rest .multiply with ⟨a, b, d, tail, rfl, hread⟩ | ⟨k, hread⟩
      · exact .inl ⟨_, ⟨tail, rfl⟩, hread⟩
      · exact .inr (.inl ⟨k, hread⟩)
    | stop => exact .inl ⟨.stop, ⟨rest, rfl⟩, rfl⟩

theorem decode_eq_unknownOpcode_iff (v : Nat) (rest : List Nat) :
    decode (v :: rest) = .error (.unknownOpcode v) ↔ decodeOpcode v = none := by
  refine ⟨fun h => ?_, decode_of_unknown rest⟩
  rcases decode_cons_cases v rest with ⟨i, -, hok⟩ | ⟨k, hmissing⟩ | ⟨hop, -⟩
  · rw [hok] at h; cases h
  · rw [hmissing] at h; cases h
  · exact hop

/-- The decoder accepts exactly the lists that begin with an encoding, and answers that instruction. -/
theorem decode_eq_ok_iff {cells : List Nat} {i : Instr} : decode cells = .ok i ↔ encode i <+: cells := by
  constructor
  · intro h
    cases cells with
    | nil => cases h
    | cons v rest =>
      rcases decode_cons_cases v rest with ⟨j, hprefix, hok⟩ | ⟨k, hmissing⟩ | ⟨-, hunknown⟩
      · rw [hok] at h; cases h; exact hprefix
      · rw [hmissing] at h; cases h
      · rw [hunknown] at h; cases h
  · rintro ⟨rest, rfl⟩
    exact (cellRoundTrip i).2 rest

theorem decodeTableWord_eq_some_iff {nbits w : Nat} {i : Instr} :
    decodeTableWord nbits w = some i ↔ encode i <+: tableCells nbits w := by
  rw [← decode_eq_ok_iff, decodeTableWord]
  cases decode (tableCells nbits w) <;> simp

/-! ### The encoding obligations of 30_encoding.md -/

/-- Settles O3: the cells of the packed word begin with the encoding, which is all the decoder asks for. -/
theorem tableWordRoundTrip : Obligations.TableWordRoundTrip := by
  unfold Obligations.TableWordRoundTrip
  intro i hi
  have hcells : encode i <+: cellsOfBits Config.xlen longestLength (tableWord i) :=
    prefix_cellsOfBits_packCells (i.wellFormed_iff.mp hi) (by simpa using i.length_le_longestLength)
  have hbits : tableWord i % 2 ^ tableBits i = tableWord i :=
    (tableWord_of_prefix hcells).symm
  rwa [decodeTableWord_eq_some_iff, tableCells, hbits]

/-- Settles O4: an accepted word begins with the encoding, cells cut out of the word that pack to its low bits. -/
theorem decodedWordsAreEncodings : Obligations.DecodedWordsAreEncodings := by
  unfold Obligations.DecodedWordsAreEncodings
  intro nbits w i h
  have hcells : encode i <+: tableCells nbits w := decodeTableWord_eq_some_iff.mp h
  exact ⟨i.wellFormed_iff.mpr fun c hc => cellsOfBits_lt (hcells.subset hc), (tableWord_of_prefix hcells).symm⟩

/-- Settles O1: the decoder's two equivalences, for each opcode and for none. -/
theorem decodeIsTheClosedEnumeration : Obligations.DecodeIsTheClosedEnumeration := by
  unfold Obligations.DecodeIsTheClosedEnumeration
  intro v rest
  exact ⟨Machine.decodeOpcode_eq_some_iff v .add, Machine.decodeOpcode_eq_some_iff v .multiply,
    Machine.decodeOpcode_eq_some_iff v .stop, decodeOpcode_eq_none_iff v,
    ((decode_eq_unknownOpcode_iff v rest).trans (decodeOpcode_eq_none_iff v)).symm⟩

/-- Settles O2, by evaluating the decoder on the words. -/
theorem sampleWordsDecode : Obligations.SampleWordsDecode := by
  unfold Obligations.SampleWordsDecode
  decide

end Sys2Proof

namespace Sys2Proof.Machine

/-! ### An ADD or MULTIPLY that completes (R100) -/

theorem completes_advance_setCell (s : State) (d r : Nat) : Completes s d r (.next (advance (s.setCell d r))) :=
  ⟨_, rfl, setCell_cell_same s d r, fun _ => setCell_cell_other s r, rfl, rfl, rfl, rfl, rfl, rfl⟩

/-- R100: with its addresses valid and its exact result `r` in range, the instruction completes. -/
theorem settle_threeAddress_completes {p : Params} {f : Nat → Nat → Nat} {a b d r : Nat} {s : State}
    (ha : a < s.len) (hb : b < s.len) (hd : d < s.len) (hr : f (s.cell a) (s.cell b) = r) (hfit : p.fits r = true) :
    Completes s d r (settle s (threeAddress p f a b d s)) := by
  rw [settle_threeAddress, if_neg (by omega), if_neg (by omega), if_neg (by simp [hr, hfit]), if_neg (by omega), hr]
  exact completes_advance_setCell s d r

/-! ### The execution obligations of 30_encoding.md -/

/-- Settles O16: the step of an unknown opcode at the core's parameters. -/
theorem unknownOpcodeEndsTheRun : Obligations.UnknownOpcodeEndsTheRun := by
  unfold Obligations.UnknownOpcodeEndsTheRun
  intro s hs hpc h1 h2 h99
  rw [← stepAt_core]
  exact stepAt_unknown Config.core hs hpc h1 h2 h99

/-- Settles O30: 0 is neutral for the sum and 1 for the product, so the result written is the value of cell a. -/
theorem copyIdioms : Obligations.CopyIdioms := by
  unfold Obligations.CopyIdioms
  intro s a c d ha hc hd hfit
  have hfit' : Config.core.fits (s.cell a) = true := decide_eq_true hfit
  refine ⟨fun hzero => ?_, fun hone => ?_⟩
  · have hsum : s.cell a + s.cell c = s.cell a := by rw [hzero, Nat.add_zero]
    exact settle_threeAddress_completes (f := fun x y => x + y) ha hc hd hsum hfit'
  · have hproduct : s.cell a * s.cell c = s.cell a := by rw [hone, Nat.mul_one]
    exact settle_threeAddress_completes (f := fun x y => x * y) ha hc hd hproduct hfit'

end Sys2Proof.Machine

namespace Sys2Proof.Machine

/-! ### The cells under PC and the instruction the step runs (R81, R84) -/

/-- The cells at PC and on, all of them in the run, are `cells`. -/
def CellsAtPc (s : State) (cells : List Nat) : Prop :=
  ∀ k (h : k < cells.length), s.pc + k < s.len ∧ s.cell (s.pc + k) = cells[k]

theorem CellsAtPc.of_prefix {s : State} {cells more : List Nat} (h : CellsAtPc s more) (hp : cells <+: more) :
    CellsAtPc s cells := by
  intro k hk
  obtain ⟨hlt, hcell⟩ := h k (hk.trans_le hp.length_le)
  exact ⟨hlt, hcell.trans (hp.getElem hk).symm⟩

/-- A whole instruction of format Q under PC: its opcode and operand cells, the last of them below LEN. -/
theorem CellsAtPc.formatQ {s : State} {v a b d : Nat} (h : CellsAtPc s [v, a, b, d]) :
    s.pc + 3 < s.len ∧ s.cell s.pc = v ∧ s.cell (s.pc + 1) = a ∧ s.cell (s.pc + 2) = b ∧ s.cell (s.pc + 3) = d := by
  obtain ⟨-, hop⟩ := h 0 (by simp)
  obtain ⟨-, ha⟩ := h 1 (by simp)
  obtain ⟨-, hb⟩ := h 2 (by simp)
  obtain ⟨hend, hd⟩ := h 3 (by simp)
  exact ⟨hend, hop, ha, hb, hd⟩

theorem step_of_cellsAtPc {s : State} {i : Instr} (hs : s.status = .running) (h : CellsAtPc s (encode i)) :
    step s = exec i s := by
  cases i with
  | add a b d =>
    obtain ⟨hend, hop, rfl, rfl, rfl⟩ := h.formatQ
    exact step_eq_exec_add hs hend hop
  | multiply a b d =>
    obtain ⟨hend, hop, rfl, rfl, rfl⟩ := h.formatQ
    exact step_eq_exec_multiply hs hend hop
  | stop =>
    obtain ⟨hpc, hop⟩ : s.pc < s.len ∧ s.cell s.pc = 99 := h 0 (by decide)
    exact step_of_fetch_ok hs (by rw [fetch_of_lt hpc, hop]; rfl)

theorem cellsAtPc_placeInstruction (s : State) (cells : List Nat) : CellsAtPc (placeInstruction s cells) cells := by
  intro k hk
  rw [placeInstruction_pc, placeInstruction_len, placeInstruction_cell]
  exact ⟨by omega, placeCells_cell s s.pc cells k hk⟩

/-! ### How a step from Running differs from its start (R80, R87, R88) -/

/-- A step from Running moves PC on or leaves Running. -/
theorem stepAt_ne_self {p : Params} {s t : State} (hs : s.status = .running) (h : stepAt p s = .next t) : t ≠ s := by
  rintro rfl
  obtain ⟨-, ⟨-, -, hmoved, -⟩ | ⟨hend, -⟩⟩ := stepAt_pc_cases h
  · omega
  · exact hend hs

/-- A step that fails is the entry into Failed with the first failure of R134. -/
theorem stepAt_fails {p : Params} {s t : State} (hs : s.status = .running) (h : stepAt p s = .next t)
    (ht : t.status = .failed) : ∃ e, firstFailure p s = some e ∧ t = raise e s := by
  rcases stepAt_cases hs h with hfail | ⟨f, -, -, -, rfl⟩ | ⟨-, -, rfl⟩
  · exact hfail
  · exact absurd (hs.symm.trans ht) nofun
  · cases ht

theorem Failure.cause_ne_none (e : Failure) : e.cause ≠ .none := by
  cases e <;> exact nofun

theorem ArithmeticAt.eq_add {s : State} {f : Nat → Nat → Nat} (h : ArithmeticAt s f) (hop : s.cell s.pc = 1) :
    f = fun a b => a + b := by
  rcases h with ⟨-, hf⟩ | ⟨hop', -⟩
  · exact hf
  · omega

theorem ArithmeticAt.eq_multiply {s : State} {f : Nat → Nat → Nat} (h : ArithmeticAt s f)
    (hop : s.cell s.pc = 2) : f = fun a b => a * b := by
  rcases h with ⟨hop', -⟩ | ⟨-, hf⟩
  · omega
  · exact hf

theorem ArithmeticAt.opcode {s : State} {f : Nat → Nat → Nat} (h : ArithmeticAt s f) :
    s.cell s.pc = 1 ∨ s.cell s.pc = 2 := arithmeticAt_exists_iff.mp ⟨f, h⟩

theorem relaunch_of_admissible {p : Params} {img : List Nat} (h : admissible p img = true) (s : State) :
    relaunch p img s = State.ofImage img := by
  rw [relaunch, launch_of_admissible h]

/-! ### The table of R134 by what stands under PC -/

theorem firstFailure_of_le (p : Params) {s : State} (h : s.len ≤ s.pc) :
    firstFailure p s = some (.outOfBounds s.pc) := if_pos h

theorem firstFailure_arithmetic (p : Params) {f : Nat → Nat → Nat} {s : State} (hpc : s.pc < s.len)
    (hf : ArithmeticAt s f) : firstFailure p s = arithmeticFailure p f s := by
  rcases hf with ⟨hop, rfl⟩ | ⟨hop, rfl⟩
  · rw [firstFailure, if_neg (by omega), if_pos hop]
  · rw [firstFailure, if_neg (by omega), if_neg (by omega), if_pos hop]

theorem firstFailure_stop (p : Params) {s : State} (hpc : s.pc < s.len) (hop : s.cell s.pc = 99) :
    firstFailure p s = none := by
  rw [firstFailure, if_neg (by omega), if_neg (by omega), if_neg (by omega), if_pos hop]

theorem firstFailure_unknown (p : Params) {s : State} (hpc : s.pc < s.len) (h1 : s.cell s.pc ≠ 1)
    (h2 : s.cell s.pc ≠ 2) (h99 : s.cell s.pc ≠ 99) :
    firstFailure p s = some (.unknownOpcode (s.cell s.pc)) := by
  rw [firstFailure, if_neg (by omega), if_neg h1, if_neg h2, if_neg h99]

theorem SafeStep.pc_lt {p : Params} {s : State} (h : SafeStep p s) : s.pc < s.len := by
  obtain ⟨-, hsafe⟩ := h
  by_contra hpc
  rw [firstFailure_of_le p (Nat.le_of_not_lt hpc)] at hsafe
  cases hsafe

/-! ### The trace of a safe step and of a failing one (R92) -/

theorem arithmeticTrace_of_safe {p : Params} {f : Nat → Nat → Nat} {s : State}
    (h : arithmeticFailure p f s = none) :
    arithmeticTrace p f s = [.read (s.pc + 1), .read (s.pc + 2), .read (s.pc + 3), .read (s.cell (s.pc + 1)),
      .read (s.cell (s.pc + 2)),
      .write (s.cell (s.pc + 3)) (f (s.cell (s.cell (s.pc + 1))) (s.cell (s.cell (s.pc + 2))))] := by
  obtain ⟨hend, ha, hb, hfit, -⟩ := arithmeticFailure_eq_none.mp h
  rw [arithmeticTrace, readThen_of_lt _ (by omega), readThen_of_lt _ (by omega), readThen_of_lt _ hend,
    readThen_of_lt _ ha, readThen_of_lt _ hb, if_pos hfit]

/-- `trace` is how the accesses of a step that raises `e` end (R92): it is reads of valid addresses, then, where `e` is
OutOfBounds, the access of the address that `e` names. -/
def EndsAtFailure (s : State) (e : Failure) (trace : List Access) : Prop :=
  ∃ done : List Nat, (∀ a ∈ done, a < s.len) ∧
    (e.cause = .outOfBounds → trace = done.map .read ++ [.read e.info] ∨
      ∃ v, trace = done.map .read ++ [.write e.info v]) ∧
    (e.cause ≠ .outOfBounds → trace = done.map .read)

section
variable {s : State} {e : Failure}

theorem EndsAtFailure.read_outOfBounds (s : State) (a : Nat) : EndsAtFailure s (.outOfBounds a) [.read a] :=
  ⟨[], nofun, fun _ => .inl rfl, fun h => absurd rfl h⟩

theorem EndsAtFailure.write_outOfBounds (s : State) (a v : Nat) : EndsAtFailure s (.outOfBounds a) [.write a v] :=
  ⟨[], nofun, fun _ => .inr ⟨v, rfl⟩, fun h => absurd rfl h⟩

theorem EndsAtFailure.nil (s : State) (he : e.cause ≠ .outOfBounds) : EndsAtFailure s e [] :=
  ⟨[], nofun, fun h => absurd h he, fun _ => rfl⟩

theorem EndsAtFailure.cons_read {a : Nat} {trace : List Access} (ha : a < s.len) (h : EndsAtFailure s e trace) :
    EndsAtFailure s e (.read a :: trace) := by
  obtain ⟨done, hvalid, hout, hother⟩ := h
  refine ⟨a :: done, List.forall_mem_cons.mpr ⟨ha, hvalid⟩, fun he => ?_, fun he => ?_⟩
  · exact (hout he).imp (congrArg (Access.read a :: ·)) (Exists.imp fun _ => congrArg (Access.read a :: ·))
  · exact congrArg (Access.read a :: ·) (hother he)

/-- A read and the check of R134 that is its own: the trace ends at the read if the check fails, and else goes on as the
later checks do. -/
theorem EndsAtFailure.readThen {a : Nat} {checks : Option Failure} {trace : List Access}
    (h : (if s.len ≤ a then some (.outOfBounds a) else checks) = some e)
    (hrest : checks = some e → EndsAtFailure s e trace) : EndsAtFailure s e (readThen s a trace) := by
  split_ifs at h with ha
  · cases h
    rw [readThen_of_le trace ha]
    exact .read_outOfBounds s a
  · have hlt : a < s.len := Nat.lt_of_not_le ha
    rw [readThen_of_lt trace hlt]
    exact (hrest h).cons_read hlt

/-- The accesses of an ADD or MULTIPLY stand in the order of its checks. -/
theorem arithmeticTrace_endsAtFailure {p : Params} {f : Nat → Nat → Nat} (h : arithmeticFailure p f s = some e) :
    EndsAtFailure s e (arithmeticTrace p f s) := by
  unfold arithmeticFailure at h
  refine .readThen h fun h => .readThen h fun h => .readThen h fun h => .readThen h fun h => .readThen h fun h => ?_
  split_ifs at h with hfit hdst
  · cases h
    rw [if_neg (by simp [hfit])]
    exact .nil s nofun
  · cases h
    rw [if_pos (by simpa using hfit)]
    exact .write_outOfBounds s _ _

theorem stepTrace_endsAtFailure {p : Params} (hs : s.status = .running) (h : firstFailure p s = some e) :
    EndsAtFailure s e (stepTrace p s) := by
  by_cases hpc : s.len ≤ s.pc
  · rw [firstFailure_of_le p hpc] at h
    cases h
    rw [stepTrace_beyond p hs hpc]
    exact .read_outOfBounds s s.pc
  have hlt : s.pc < s.len := Nat.lt_of_not_le hpc
  rcases opcode_cases s with ⟨f, hf⟩ | h99 | ⟨h1, h2, h99⟩
  · rw [firstFailure_arithmetic p hlt hf] at h
    rw [stepTrace_arithmetic p hs hlt hf]
    exact (arithmeticTrace_endsAtFailure h).cons_read hlt
  · rw [firstFailure_stop p hlt h99] at h
    cases h
  · rw [firstFailure_unknown p hlt h1 h2 h99] at h
    cases h
    rw [stepTrace_unknown p hs hlt h1 h2 h99]
    exact .cons_read hlt (.nil s nofun)

end

/-! ### The length and the end of a run (R50, R89, R90) -/

theorem runAt_len {p : Params} {k : Nat} {s t : State} (h : runAt p k s = .next t) : t.len = s.len := by
  refine runAt_keeps (P := fun u => u.len = s.len) (fun u v hu huv => ?_) rfl h
  obtain ⟨hlen, -⟩ := stepAt_pc_cases huv
  exact hlen.trans hu

/-- R90: each step that does not end the run takes 4 cells of the `LEN - PC` that are left. -/
theorem runAt_ends {p : Params} {k : Nat} {s : State} (hk : (s.len - s.pc) / 4 < k) :
    ∃ t, runAt p k s = .next t ∧ t.status ≠ .running := by
  induction k generalizing s with
  | zero => exact absurd hk (Nat.not_lt_zero _)
  | succ k ih =>
    obtain ⟨u, hu⟩ := stepAt_next p s
    rw [runAt_succ k hu]
    obtain ⟨hlen, ⟨-, -, hmoved, hbound⟩ | ⟨hend, -⟩⟩ := stepAt_pc_cases hu
    · exact ih (by omega)
    · exact ⟨u, runAt_of_terminal p k hend, hend⟩

/-- A run of an image completes at most one ADD or MULTIPLY for every 4 cells. -/
theorem completedSteps_ofImage_le (p : Params) (img : List Nat) (k : Nat) :
    completedSteps p k (State.ofImage img) ≤ img.length / 4 := by
  obtain ⟨t, hrun⟩ := runAt_next p k (State.ofImage img)
  obtain ⟨hpc, hle⟩ := (pcCounts_ofImage img).after_run hrun
  have hlen : t.len = img.length := runAt_len hrun
  omega

theorem execute_of_admissible {p : Params} {img : List Nat} (h : admissible p img = true) :
    execute p img = runAt p (img.length / 4 + 1) (State.ofImage img) := by
  rw [execute, launch_of_admissible h]
  rfl

theorem outcome_of_halted {s : State} (h : s.status = .halted) : s.outcome = some (.success s.result) := by
  simp [State.outcome, h]

theorem outcome_of_failed {s : State} (h : s.status = .failed) : s.outcome = some (.failure s.cause s.info) := by
  simp [State.outcome, h]

/-! ### The obligations of 40_sequencer.md -/

/-- Settles O10: a step from Running is no step to itself, and elsewhere the state is answered and nothing is read. -/
theorem stepsExactlyWhileRunning : Obligations.StepsExactlyWhileRunning := by
  unfold Obligations.StepsExactlyWhileRunning
  intro s
  rw [← stepAt_core]
  refine ⟨⟨fun ⟨t, h, hne⟩ => ?_, fun hs => ?_⟩, fun hs => ?_⟩
  · by_contra hs
    rw [stepAt_of_terminal _ hs] at h
    cases h
    exact hne rfl
  · obtain ⟨t, h⟩ := stepAt_next Config.core s
    exact ⟨t, h, stepAt_ne_self hs h⟩
  · exact ⟨stepAt_of_terminal _ hs, stepTrace_of_terminal _ hs⟩

/-- Settles O12: the word's cells begin with the encoding of `i` and stand at PC once they are placed. -/
theorem placedInstructionIsRun : Obligations.PlacedInstructionIsRun := by
  unfold Obligations.PlacedInstructionIsRun
  intro s nbits w i h
  have hplaced := cellsAtPc_placeInstruction s (tableCells nbits w)
  exact step_of_cellsAtPc rfl (hplaced.of_prefix (decodeTableWord_eq_some_iff.mp h))

/-- Settles O18: the one failing end of a step is the entry into Failed. -/
theorem failureEntryKeepsTheRest : Obligations.FailureEntryKeepsTheRest := by
  unfold Obligations.FailureEntryKeepsTheRest
  intro s t hs h ht
  rw [← stepAt_core] at h
  obtain ⟨e, -, rfl⟩ := stepAt_fails hs h ht
  exact ⟨rfl, rfl, rfl, rfl, e.cause_ne_none⟩

/-- Settles O20: the three ends of a step from Running, the state itself elsewhere, and a launch, made of its image. -/
theorem statusTransitionsAreTheFour : Obligations.StatusTransitionsAreTheFour := by
  unfold Obligations.StatusTransitionsAreTheFour
  refine ⟨fun s t hs h => ?_, fun s t hs h => ?_, fun s s' img himg => ?_⟩
  · rw [← stepAt_core] at h
    rcases stepAt_cases hs h with ⟨e, -, rfl⟩ | ⟨f, hf, -, hsafe, rfl⟩ | ⟨-, hop, rfl⟩
    · exact .inr (.inr ⟨rfl, e.cause, e.info, rfl⟩)
    · obtain ⟨-, -, -, -, hdst⟩ := arithmeticFailure_eq_none.mp hsafe
      refine .inl ⟨hs, hf.opcode, rfl, hdst, fun hadd => ?_, fun hmul => ?_, fun j hj => ?_, rfl, rfl, rfl, rfl⟩
      · simp [hf.eq_add hadd]
      · simp [hf.eq_multiply hmul]
      · exact setCell_cell_other s _ hj
    · exact .inr (.inl ⟨rfl, hop, rfl⟩)
  · rw [← stepAt_core, stepAt_of_terminal _ hs] at h
    cases h
    rfl
  · rw [relaunch_of_admissible himg, relaunch_of_admissible himg]
    exact ⟨rfl, rfl⟩

/-- Settles O32: with every address valid and the result in range no read stops the trace. -/
theorem traceOfASafeStep : Obligations.TraceOfASafeStep := by
  unfold Obligations.TraceOfASafeStep
  intro s h
  have hpc := h.pc_lt
  obtain ⟨hs, hsafe⟩ := h
  refine ⟨fun f hf => ?_, stepTrace_stop _ hs hpc⟩
  rw [firstFailure_arithmetic _ hpc hf] at hsafe
  rw [stepTrace_arithmetic _ hs hpc hf, arithmeticTrace_of_safe hsafe]

/-- Settles O33: the failure reported is the first of R134, whose checks stand in the order of the accesses. -/
theorem traceOfAFailingStep : Obligations.TraceOfAFailingStep := by
  unfold Obligations.TraceOfAFailingStep
  intro s t hs h ht
  rw [← stepAt_core] at h
  obtain ⟨e, he, rfl⟩ := stepAt_fails hs h ht
  obtain ⟨done, hvalid, hout, hother⟩ := stepTrace_endsAtFailure hs he
  exact ⟨fun hc => ⟨done, hvalid, hout hc⟩, fun hc => ⟨done, hvalid, hother hc⟩⟩

/-- Settles O41, by the cells left to the run and the count of its completed steps. -/
theorem everyRunEndsWithinTheBound : Obligations.EveryRunEndsWithinTheBound := by
  unfold Obligations.EveryRunEndsWithinTheBound
  refine ⟨fun s => ?_, fun img s h => ?_, _, rfl, rfl⟩
  · rw [core_run]
    exact runAt_ends (Nat.lt_succ_self _)
  · obtain ⟨-, rfl⟩ := launch_eq_next_iff.mp h
    rw [core_run]
    exact ⟨runAt_ends (Nat.lt_succ_self _), completedSteps_ofImage_le _ img⟩

/-- Settles O42: the bound reaches a terminal state, whose record the invariant of the run gives. -/
theorem everyRunHasAnOutcome : Obligations.EveryRunHasAnOutcome := by
  unfold Obligations.EveryRunHasAnOutcome
  intro img himg
  obtain ⟨t, hrun, hend⟩ : ∃ t, runAt Config.core (img.length / 4 + 1) (State.ofImage img) = .next t ∧
    t.status ≠ .running := runAt_ends (Nat.lt_succ_self _)
  have hi : Inv Config.core t := Inv.of_launch_run (launch_of_admissible himg) hrun
  refine ⟨t, (execute_of_admissible himg).trans hrun, ?_⟩
  cases hs : t.status with
  | running => exact absurd hs hend
  | halted =>
    obtain ⟨-, -, hresult, hpc, hop⟩ := hi.haltedRecord hs
    exact .inl ⟨by rw [outcome_of_halted hs, hresult], hpc, hop⟩
  | failed =>
    obtain ⟨-, e, he, hcause, hinfo⟩ := hi.failedRecord hs
    exact .inr ⟨e, by rw [outcome_of_failed hs, hcause, hinfo], he⟩

/-- Settles O11: the cells at PC are those of the encoding. -/
theorem stepRunsTheStoredInstruction : Obligations.StepRunsTheStoredInstruction := by
  unfold Obligations.StepRunsTheStoredInstruction
  exact fun s i => step_of_cellsAtPc

end Sys2Proof.Machine

namespace Sys2Proof.Machine

/-! ### Bounded cells and unbounded integers (R5, R103) -/

/-- The parameters enter a step through the table of R134 alone. -/
theorem stepAt_eq_of_firstFailure_eq {p q : Params} {s : State} (h : firstFailure p s = firstFailure q s) :
    stepAt p s = stepAt q s := by
  by_cases hs : s.status = .running
  case neg => rw [stepAt_of_terminal p hs, stepAt_of_terminal q hs]
  by_cases hend : s.len ≤ s.pc
  · rw [stepAt_beyond p hs hend, stepAt_beyond q hs hend]
  have hpc : s.pc < s.len := Nat.lt_of_not_le hend
  rcases opcode_cases s with ⟨f, hf⟩ | h99 | ⟨h1, h2, h99⟩
  · rw [firstFailure_arithmetic p hpc hf, firstFailure_arithmetic q hpc hf] at h
    rw [stepAt_arithmetic p hs hpc hf, stepAt_arithmetic q hs hpc hf, arithmeticStep, arithmeticStep, h]
  · rw [stepAt_stop p hs hpc h99, stepAt_stop q hs hpc h99]
  · rw [stepAt_unknown p hs hpc h1 h2 h99, stepAt_unknown q hs hpc h1 h2 h99]

/-- Two tables that begin with the same check are compared by the checks after it. -/
theorem ite_eq_or_eq_ite {α : Type} {c : Prop} [Decidable c] {x y z o : α} (h : y = o ∨ y = z) :
    (if c then x else y) = o ∨ (if c then x else y) = if c then x else z := by
  split_ifs
  · exact .inr rfl
  · exact h

/-- Bounded cells change the checks of an ADD or MULTIPLY by the overflow alone. -/
theorem arithmeticFailure_overflow_or_unbounded (p : Params) (f : Nat → Nat → Nat) (s : State) :
    arithmeticFailure p f s = some (.arithmeticOverflow s.pc) ∨
      arithmeticFailure p f s = arithmeticFailure Config.unbounded f s := by
  unfold arithmeticFailure
  refine ite_eq_or_eq_ite (ite_eq_or_eq_ite (ite_eq_or_eq_ite (ite_eq_or_eq_ite (ite_eq_or_eq_ite ?_))))
  by_cases hfit : p.fits (f (s.cell (s.cell (s.pc + 1))) (s.cell (s.cell (s.pc + 2)))) = false
  · exact .inl (if_pos hfit)
  · exact .inr ((if_neg hfit).trans (if_neg (by simp)).symm)

theorem firstFailure_overflow_or_unbounded (p : Params) (s : State) :
    firstFailure p s = some (.arithmeticOverflow s.pc) ∨ firstFailure p s = firstFailure Config.unbounded s := by
  by_cases hend : s.len ≤ s.pc
  · exact .inr ((firstFailure_of_le p hend).trans (firstFailure_of_le _ hend).symm)
  have hpc : s.pc < s.len := Nat.lt_of_not_le hend
  rcases opcode_cases s with ⟨f, hf⟩ | h99 | ⟨h1, h2, h99⟩
  · rw [firstFailure_arithmetic p hpc hf, firstFailure_arithmetic _ hpc hf]
    exact arithmeticFailure_overflow_or_unbounded p f s
  · exact .inr ((firstFailure_stop p hpc h99).trans (firstFailure_stop _ hpc h99).symm)
  · exact .inr ((firstFailure_unknown p hpc h1 h2 h99).trans (firstFailure_unknown _ hpc h1 h2 h99).symm)

/-- A step from Running raises the first failure of R134 where there is one. -/
theorem stepAt_of_firstFailure {p : Params} {s : State} {e : Failure} (hs : s.status = .running)
    (he : firstFailure p s = some e) : stepAt p s = .next (raise e s) := by
  obtain ⟨t, ht⟩ := stepAt_next p s
  rcases stepAt_cases hs ht with ⟨e', he', rfl⟩ | ⟨f, hf, hpc, hsafe, -⟩ | ⟨hpc, hop, -⟩
  · rw [ht, Option.some.inj (he.symm.trans he')]
  · rw [firstFailure_arithmetic p hpc hf, hsafe] at he
    cases he
  · rw [firstFailure_stop p hpc hop] at he
    cases he

/-- R103: a step of bounded cells is the unbounded machine's, or it has overflowed. -/
theorem stepAt_unbounded_or_overflowed {p : Params} {s t : State} (h : stepAt p s = .next t) :
    stepAt Config.unbounded s = .next t ∨ Overflowed t := by
  by_cases hs : s.status = .running
  case neg =>
    rw [stepAt_of_terminal p hs] at h
    exact .inl ((stepAt_of_terminal _ hs).trans h)
  rcases firstFailure_overflow_or_unbounded p s with hover | hsame
  · rw [stepAt_of_firstFailure hs hover] at h
    cases h
    exact .inr ⟨rfl, rfl⟩
  · exact .inl ((stepAt_eq_of_firstFailure_eq hsame).symm.trans h)

theorem Overflowed.not_running {s : State} (h : Overflowed s) : s.status ≠ .running := by
  obtain ⟨hfailed, -⟩ := h
  simp [hfailed]

/-- Settles O49: a step from the common state agrees or overflows, and an overflowed state is terminal. -/
theorem stepKeepsUnboundedAgreement : Obligations.StepKeepsUnboundedAgreement := by
  unfold Obligations.StepKeepsUnboundedAgreement
  rintro p s u t v (rfl | hover) hs hu
  · refine (stepAt_unbounded_or_overflowed hs).imp_left fun hsame => ?_
    rw [hsame] at hu
    cases hu
    rfl
  · rw [stepAt_of_terminal p hover.not_running] at hs
    cases hs
    exact .inr hover

/-- What each step keeps of the agreement, a run keeps. -/
theorem runAt_keeps_unbounded_agreement {p : Params} {k : Nat} {s u t v : State} (h : s = u ∨ Overflowed s)
    (ht : runAt p k s = .next t) (hv : runAt Config.unbounded k u = .next v) : t = v ∨ Overflowed t := by
  induction k generalizing s u with
  | zero => cases ht; cases hv; exact h
  | succ k ih =>
    obtain ⟨s', hs'⟩ := stepAt_next p s
    obtain ⟨u', hu'⟩ := stepAt_next Config.unbounded u
    rw [runAt_succ k hs'] at ht
    rw [runAt_succ k hu'] at hv
    exact ih (stepKeepsUnboundedAgreement p s u s' u' h hs' hu') ht hv

@[simp] theorem admissible_unbounded (img : List Nat) : admissible Config.unbounded img = true := by
  simp [admissible, Params.holds, Config.unbounded, Params.fits]

/-- Settles O43: both launches give the image's state, and from it the runs agree or the bounded one overflows. -/
theorem runsAreThoseOfUnboundedIntegers : Obligations.RunsAreThoseOfUnboundedIntegers := by
  unfold Obligations.RunsAreThoseOfUnboundedIntegers
  intro p img k s t hl hrun hcause
  obtain ⟨-, rfl⟩ := launch_eq_next_iff.mp hl
  refine ⟨launch_of_admissible (admissible_unbounded img), ?_⟩
  obtain ⟨v, hv⟩ := runAt_next Config.unbounded k (State.ofImage img)
  rcases runAt_keeps_unbounded_agreement (.inl rfl) hrun hv with rfl | ⟨-, hover⟩
  · exact hv
  · exact absurd hover hcause

/-! ### The step of an ADD or MULTIPLY, check by check (R101, R102) -/

theorem core_fits_eq_false_iff (r : Nat) : Config.core.fits r = false ↔ 2 ^ Config.xlen ≤ r := by
  rw [core_fits, decide_eq_false_iff_not, Nat.not_lt]

/-- The seven checks that R101 and R102 share, in their order, and the completion if none of their conditions holds. -/
theorem step_arithmetic_checks {f : Nat → Nat → Nat} {s : State} (hs : s.status = .running) (hpc : s.pc < s.len)
    (hf : ArithmeticAt s f) :
    let a := s.cell (s.pc + 1)
    let b := s.cell (s.pc + 2)
    let d := s.cell (s.pc + 3)
    let r := f (s.cell a) (s.cell b)
    if s.len ≤ s.pc + 1 then step s = .next (failedState s .outOfBounds (s.pc + 1))
    else if s.len ≤ s.pc + 2 then step s = .next (failedState s .outOfBounds (s.pc + 2))
    else if s.len ≤ s.pc + 3 then step s = .next (failedState s .outOfBounds (s.pc + 3))
    else if s.len ≤ a then step s = .next (failedState s .outOfBounds a)
    else if s.len ≤ b then step s = .next (failedState s .outOfBounds b)
    else if 2 ^ Config.xlen ≤ r then step s = .next (failedState s .arithmeticOverflow s.pc)
    else if s.len ≤ d then step s = .next (failedState s .outOfBounds d)
    else Completes s d r (step s) := by
  simp only [← stepAt_core, stepAt_arithmetic Config.core hs hpc hf, arithmeticStep, arithmeticFailure,
    core_fits_eq_false_iff]
  split_ifs
  case neg => exact completes_advance_setCell s _ _
  all_goals rfl

/-- Settles O13: the checks with the sum. -/
theorem addStepFollowsItsRule : Obligations.AddStepFollowsItsRule := by
  unfold Obligations.AddStepFollowsItsRule
  exact fun s hs hpc hop => step_arithmetic_checks hs hpc (.inl ⟨hop, rfl⟩)

/-- Settles O14: the checks with the product. -/
theorem multiplyStepFollowsItsRule : Obligations.MultiplyStepFollowsItsRule := by
  unfold Obligations.MultiplyStepFollowsItsRule
  exact fun s hs hpc hop => step_arithmetic_checks hs hpc (.inr ⟨hop, rfl⟩)

/-! ### The meaning of an ADD or MULTIPLY: completion, frame, exchange of the sources (R100, R103) -/

section
variable {p : Params} {f : Nat → Nat → Nat} {a b d : Nat} {s t : State}

theorem settle_threeAddress_of_valid (ha : a < s.len) (hb : b < s.len)
    (hfit : p.fits (f (s.cell a) (s.cell b)) = true) (hd : d < s.len) :
    settle s (threeAddress p f a b d s) = .next (advance (s.setCell d (f (s.cell a) (s.cell b)))) := by
  rw [settle_threeAddress, if_neg (by omega), if_neg (by omega), if_neg (by simp [hfit]), if_neg (by omega)]

/-- The two ways an ADD or MULTIPLY ends, with what it has checked when it completes. -/
theorem settle_threeAddress_cases (h : settle s (threeAddress p f a b d s) = .next t) :
    (∃ e, t = raise e s) ∨
      (a < s.len ∧ b < s.len ∧ p.fits (f (s.cell a) (s.cell b)) = true ∧ d < s.len ∧
        t = advance (s.setCell d (f (s.cell a) (s.cell b)))) := by
  rw [settle_threeAddress] at h
  split_ifs at h with ha hb hfit hd
  case neg =>
    cases h
    exact .inr ⟨by omega, by omega, by simpa using hfit, by omega, rfl⟩
  all_goals cases h; exact .inl ⟨_, rfl⟩

/-- R100, R42, R135: what an ADD or MULTIPLY leaves unchanged. -/
theorem settle_threeAddress_frame (h : settle s (threeAddress p f a b d s) = .next t) :
    t.len = s.len ∧ t.result = s.result ∧ (∀ x, x ≠ d → t.cell x = s.cell x) ∧
    (t.pc = s.pc + 4 ∧ t.status = s.status ∧ t.cause = s.cause ∧ t.info = s.info ∨
      t.pc = s.pc ∧ t.status = .failed ∧ ∀ x, t.cell x = s.cell x) := by
  rcases settle_threeAddress_cases h with ⟨e, rfl⟩ | ⟨-, -, -, -, rfl⟩
  · exact ⟨rfl, rfl, fun _ _ => rfl, .inr ⟨rfl, rfl, fun _ => rfl⟩⟩
  · exact ⟨rfl, rfl, fun _ => setCell_cell_other s _, .inl ⟨rfl, rfl, rfl, rfl⟩⟩

/-- R103: a commutative `f` completes with the same result when its source addresses are exchanged. -/
theorem settle_threeAddress_comm (hf : ∀ x y, f x y = f y x) (h : settle s (threeAddress p f a b d s) = .next t)
    (ht : t.status = .running) : settle s (threeAddress p f b a d s) = .next t := by
  rcases settle_threeAddress_cases h with ⟨e, rfl⟩ | ⟨ha, hb, hfit, hd, rfl⟩
  · cases ht
  · rw [hf] at hfit ⊢
    exact settle_threeAddress_of_valid hb ha hfit hd

end

/-- Settles O24: the sum is the exact result of ADD. -/
theorem addCompletes : Obligations.AddCompletes := by
  unfold Obligations.AddCompletes
  exact fun s a b d ha hb hd hfit =>
    settle_threeAddress_completes (f := fun x y => x + y) ha hb hd rfl (decide_eq_true hfit)

/-- Settles O25: the product is the exact result of MULTIPLY. -/
theorem multiplyCompletes : Obligations.MultiplyCompletes := by
  unfold Obligations.MultiplyCompletes
  exact fun s a b d ha hb hd hfit =>
    settle_threeAddress_completes (f := fun x y => x * y) ha hb hd rfl (decide_eq_true hfit)

/-- Settles O27: both instructions are `ThreeAddress`, so they share its frame. -/
theorem arithmeticFrame : Obligations.ArithmeticFrame := by
  unfold Obligations.ArithmeticFrame
  rintro s t a b d (hadd | hmul)
  · exact settle_threeAddress_frame hadd
  · exact settle_threeAddress_frame hmul

/-- Settles O29: sum and product are commutative. -/
theorem sourcesCommute : Obligations.SourcesCommute := by
  unfold Obligations.SourcesCommute
  exact fun s t a b d _ ht =>
    ⟨fun hadd => settle_threeAddress_comm Nat.add_comm hadd ht,
      fun hmul => settle_threeAddress_comm Nat.mul_comm hmul ht⟩

end Sys2Proof.Machine

namespace Sys2Proof.Machine

/-! ### STOP and the end of memory (R120, R122, R123) -/

/-- The two ways the meaning of STOP ends, by whether there is a cell 0. -/
theorem execStop_cases {s t : State} (h : execStop s = .next t) :
    (0 < s.len ∧ t = halt (s.cell 0) s) ∨ (s.len = 0 ∧ t = raise (.outOfBounds 0) s) := by
  rcases Nat.eq_zero_or_pos s.len with hempty | hpos
  · rw [execStop_of_empty hempty] at h
    cases h
    exact .inr ⟨hempty, rfl⟩
  · rw [execStop_of_lt hpos] at h
    cases h
    exact .inl ⟨hpos, rfl⟩

/-- A step from Running that ends in Halted ran the STOP under PC. -/
theorem stepAt_halts {p : Params} {s t : State} (hs : s.status = .running) (h : stepAt p s = .next t)
    (ht : t.status = .halted) : s.pc < s.len ∧ s.cell s.pc = 99 := by
  rcases stepAt_cases hs h with ⟨e, -, rfl⟩ | ⟨f, -, -, -, rfl⟩ | ⟨hpc, hop, -⟩
  · cases ht
  · exact absurd (hs.symm.trans ht) nofun
  · exact ⟨hpc, hop⟩

/-- Settles O15: the state it names is `halt` of cell 0. -/
theorem stopStepHaltsWithCellZero : Obligations.StopStepHaltsWithCellZero := by
  unfold Obligations.StopStepHaltsWithCellZero
  intro s hs hpc hop
  rw [← stepAt_core]
  exact stepAt_stop Config.core hs hpc hop

/-- Settles O22: of the ends of a step only that of STOP is Halted, and the step of a STOP has that end. -/
theorem onlyStopHalts : Obligations.OnlyStopHalts := by
  unfold Obligations.OnlyStopHalts
  intro s hs
  constructor
  · rintro ⟨t, h, ht⟩
    rw [← stepAt_core] at h
    exact stepAt_halts hs h ht
  · rintro ⟨hpc, hop⟩
    exact ⟨_, stopStepHaltsWithCellZero s hs hpc hop, rfl⟩

/-- Settles O21: at PC = LEN the fetch fails, within LEN the operand cell at LEN or the opcode does. -/
theorem runningOffTheEndFails : Obligations.RunningOffTheEndFails := by
  unfold Obligations.RunningOffTheEndFails
  intro s hs
  refine ⟨fun hend => ?_, step_of_cut_off hs, unknownOpcodeEndsTheRun s hs⟩
  rw [← stepAt_core, ← hend]
  exact stepAt_beyond Config.core hs hend.ge

/-- Settles O26: with a cell 0 the checked read succeeds, and `halt` keeps the rest. -/
theorem stopCompletes : Obligations.StopCompletes := by
  unfold Obligations.StopCompletes
  exact fun s hpos => ⟨_, execStop_of_lt hpos, rfl, rfl, rfl, rfl, rfl, rfl, rfl⟩

/-- Settles O28: neither `halt` nor the entry into Failed writes MEM, LEN or PC. -/
theorem stopFrame : Obligations.StopFrame := by
  unfold Obligations.StopFrame
  intro s t h
  rcases execStop_cases h with ⟨-, rfl⟩ | ⟨hempty, rfl⟩
  · exact ⟨rfl, rfl, fun _ => rfl, .inl ⟨rfl, rfl, rfl⟩⟩
  · exact ⟨rfl, rfl, fun _ => rfl, .inr ⟨rfl, hempty, rfl⟩⟩

end Sys2Proof.Machine

namespace Sys2Proof.Machine

/-! ### The failure a step reports and its record (R131 to R134) -/

/-- The addresses a step from `s` can access (R81, R100): the cells of the instruction at PC and the values of its three
operand cells. -/
def StepAddress (s : State) (a : Nat) : Prop :=
  a = s.pc ∨ a = s.pc + 1 ∨ a = s.pc + 2 ∨ a = s.pc + 3 ∨
    a = s.cell (s.pc + 1) ∨ a = s.cell (s.pc + 2) ∨ a = s.cell (s.pc + 3)

section
variable {p : Params} {s : State} {e : Failure}

/-- R131, R133: an ADD or MULTIPLY fails on an address beyond the run, or on its exact result with all its cells read. -/
theorem arithmeticFailure_cases {f : Nat → Nat → Nat} (h : arithmeticFailure p f s = some e) :
    (∃ a, e = .outOfBounds a ∧ s.len ≤ a ∧ StepAddress s a) ∨
    (e = .arithmeticOverflow s.pc ∧ s.pc + 3 < s.len ∧
      p.fits (f (s.cell (s.cell (s.pc + 1))) (s.cell (s.cell (s.pc + 2)))) = false) := by
  unfold arithmeticFailure at h
  split_ifs at h with _ _ hlast _ _ hfit <;> cases h
  pick_goal 6
  · exact .inr ⟨rfl, Nat.lt_of_not_le hlast, hfit⟩
  all_goals exact .inl ⟨_, rfl, ‹_›, by simp [StepAddress]⟩

/-- R131 to R133: the failures of R134 with what each names. -/
theorem firstFailure_cases (h : firstFailure p s = some e) :
    (∃ a, e = .outOfBounds a ∧ s.len ≤ a ∧ StepAddress s a) ∨
    (e = .unknownOpcode (s.cell s.pc) ∧ s.pc < s.len ∧ s.cell s.pc ≠ 1 ∧ s.cell s.pc ≠ 2 ∧ s.cell s.pc ≠ 99) ∨
    (∃ f, ArithmeticAt s f ∧ e = .arithmeticOverflow s.pc ∧ s.pc + 3 < s.len ∧
      p.fits (f (s.cell (s.cell (s.pc + 1))) (s.cell (s.cell (s.pc + 2)))) = false) := by
  by_cases hend : s.len ≤ s.pc
  · rw [firstFailure_of_le p hend] at h
    cases h
    exact .inl ⟨s.pc, rfl, hend, .inl rfl⟩
  have hpc : s.pc < s.len := Nat.lt_of_not_le hend
  rcases opcode_cases s with ⟨f, hf⟩ | h99 | ⟨h1, h2, h99⟩
  · rw [firstFailure_arithmetic p hpc hf] at h
    exact (arithmeticFailure_cases h).imp_right fun hover => .inr ⟨f, hf, hover⟩
  · rw [firstFailure_stop p hpc h99] at h
    cases h
  · rw [firstFailure_unknown p hpc h1 h2 h99] at h
    cases h
    exact .inr (.inl ⟨rfl, hpc, h1, h2, h99⟩)

end

/-- Settles O17: the first failure of the table is raised, and a step that fails raised one of the table. -/
theorem firstFailureIsReported : Obligations.FirstFailureIsReported := by
  unfold Obligations.FirstFailureIsReported
  intro s hs
  rw [← stepAt_core]
  refine ⟨fun e he => stepAt_of_firstFailure hs he, fun hsafe => ?_⟩
  obtain ⟨t, h⟩ := stepAt_next Config.core s
  refine ⟨t, h, fun ht => ?_⟩
  obtain ⟨e, he, -⟩ := stepAt_fails hs h ht
  exact Option.some_ne_none e (he.symm.trans hsafe)

/-- Settles O19: a failing step raises the first failure, and its record is that failure's. -/
theorem failureRecordNamesTheOffender : Obligations.FailureRecordNamesTheOffender := by
  unfold Obligations.FailureRecordNamesTheOffender
  intro s t hs h ht
  rw [← stepAt_core] at h
  obtain ⟨e, he, rfl⟩ := stepAt_fails hs h ht
  rcases firstFailure_cases he with ⟨a, rfl, ha, haddr⟩ | ⟨rfl, hpc, hop⟩ | ⟨f, hf, rfl, hlast, hfit⟩
  · exact .inl ⟨rfl, ha, haddr⟩
  · exact .inr (.inl ⟨rfl, hpc, rfl, hop⟩)
  · refine .inr (.inr ⟨rfl, hlast, rfl, ?_⟩)
    rw [core_fits_eq_false_iff] at hfit
    rcases hf with ⟨hop, rfl⟩ | ⟨hop, rfl⟩
    · exact .inl ⟨hop, hfit⟩
    · exact .inr ⟨hop, hfit⟩

end Sys2Proof.Machine

namespace Sys2Proof.Machine

/-! ### Launch and read-out (R150 to R155) -/

theorem relaunch_of_not_admissible {p : Params} {img : List Nat} (h : admissible p img = false) (s : State) :
    relaunch p img s = s := by
  rw [relaunch, launch_of_not_admissible h]

theorem launch_eq_refused_iff {p : Params} {img : List Nat} :
    launch p img = .refused .inadmissibleImage ↔ admissible p img = false := by
  cases h : admissible p img with
  | true => simp [launch_of_admissible h]
  | false => simp [launch_of_not_admissible h]

theorem admissible_core_eq_false_iff (img : List Nat) :
    admissible Config.core img = false ↔ Config.memcap < img.length ∨ ∃ v ∈ img, 2 ^ Config.xlen ≤ v := by
  rw [← Bool.not_eq_true, admissible_core_iff, not_and_or, Nat.not_le]
  simp

theorem hostCell_of_halted {s : State} (h : s.status = .halted) (a : Nat) :
    s.hostCell a = if a < s.len then some (s.cell a) else none := by
  simp [State.hostCell, h]

theorem hostCell_of_not_halted {s : State} (h : s.status ≠ .halted) (a : Nat) : s.hostCell a = none := by
  cases hs : s.status with
  | running => simp [State.hostCell, hs]
  | halted => exact absurd hs h
  | failed => simp [State.hostCell, hs]

theorem hostPc_of_terminal {s : State} (h : s.status ≠ .running) : s.hostPc = some s.pc := by
  cases hs : s.status with
  | running => exact absurd hs h
  | halted => simp [State.hostPc, hs]
  | failed => simp [State.hostPc, hs]

theorem hostLen_of_terminal {s : State} (h : s.status ≠ .running) : s.hostLen = some s.len := by
  cases hs : s.status with
  | running => exact absurd hs h
  | halted => simp [State.hostLen, hs]
  | failed => simp [State.hostLen, hs]

/-! ### The scan order (R156) -/

theorem mem_scanOrder {N V n v : Nat} : (n, v) ∈ scanOrder N V ↔ n < N ∧ v < V := by
  simp [scanOrder]

theorem scanOrder_pairwise (N V : Nat) :
    (scanOrder N V).Pairwise fun q q' => q.1 < q'.1 ∨ q.1 = q'.1 ∧ q.2 < q'.2 := by
  refine List.pairwise_flatMap.mpr ⟨fun n _ => ?row, ?rows⟩
  case row => exact List.pairwise_map.mpr (List.pairwise_lt_range.imp fun hv => .inr ⟨rfl, hv⟩)
  case rows =>
    refine List.pairwise_lt_range.imp fun {n n'} hn q hq q' hq' => .inl ?_
    obtain ⟨v, -, rfl⟩ := List.mem_map.mp hq
    obtain ⟨v', -, rfl⟩ := List.mem_map.mp hq'
    exact hn

/-! ### The poke and the run of one pair (R157, R161) -/

theorem pokeCell_of_lt {img : List Nat} {a : Nat} (v : Nat) (h : a < img.length) :
    pokeCell img a v = .ok (img.set a v) := if_neg (Nat.not_le_of_lt h)

theorem pokeCell_of_le {img : List Nat} {a : Nat} (v : Nat) (h : img.length ≤ a) :
    pokeCell img a v = .error (.outOfBounds a) := if_pos h

theorem poke_of_le {img : List Nat} (n v : Nat) (h : 3 ≤ img.length) :
    poke img n v = .ok ((img.set 1 n).set 2 v) := by
  have h2 : 2 < (img.set 1 n).length := by rw [List.length_set]; omega
  simp [poke, pokeCell_of_lt n (show 1 < img.length by omega), pokeCell_of_lt v h2, bind, Except.bind]

/-- R161: the first of the two cells that the image lacks is reported. -/
theorem poke_of_lt {img : List Nat} (n v : Nat) (h : img.length < 3) :
    poke img n v = .error (.outOfBounds (if img.length = 2 then 2 else 1)) := by
  by_cases hlen : img.length = 2
  · have h2 : (img.set 1 n).length ≤ 2 := by rw [List.length_set]; omega
    simp [poke, pokeCell_of_lt n (show 1 < img.length by omega), pokeCell_of_le v h2, bind, Except.bind, hlen]
  · simp [poke, pokeCell_of_le n (show img.length ≤ 1 by omega), bind, Except.bind, hlen]

theorem runPair_of_lt (p : Params) {img : List Nat} (n v : Nat) (h : img.length < 3) :
    runPair p img n v = .failed .outOfBounds (if img.length = 2 then 2 else 1) := by
  rw [runPair, poke_of_lt n v h]
  rfl

theorem admissible_set {p : Params} {img : List Nat} {v : Nat} (a : Nat) (h : admissible p img = true)
    (hv : p.fits v = true) : admissible p (img.set a v) = true := by
  obtain ⟨hlen, hfits⟩ := (Bool.and_eq_true _ _).mp h
  refine (Bool.and_eq_true _ _).mpr ⟨by rwa [List.length_set], List.all_eq_true.mpr fun x hx => ?_⟩
  rcases List.mem_or_eq_of_mem_set hx with hx | rfl
  · exact List.all_eq_true.mp hfits x hx
  · exact hv

/-- R89, R90: an admissible image runs to a terminal state, whose outcome the host reads. -/
theorem execute_outcome {p : Params} {img : List Nat} (h : admissible p img = true) :
    ∃ t o, execute p img = .next t ∧ t.outcome = some o := by
  obtain ⟨t, hrun, hend⟩ : ∃ t, runAt p (img.length / 4 + 1) (State.ofImage img) = .next t ∧
    t.status ≠ .running := runAt_ends (Nat.lt_succ_self _)
  have hexec : execute p img = .next t := (execute_of_admissible h).trans hrun
  cases hs : t.status with
  | running => exact absurd hs hend
  | halted => exact ⟨t, _, hexec, outcome_of_halted hs⟩
  | failed => exact ⟨t, _, hexec, outcome_of_failed hs⟩

/-- A poked image is refused only for a value in it that no cell holds. -/
theorem runPair_ne_noRun {p : Params} {img : List Nat} {n v : Nat} (h : admissible p img = true)
    (hn : p.fits n = true) (hv : p.fits v = true) : runPair p img n v ≠ .noRun := by
  by_cases hlen : img.length < 3
  · simp [runPair_of_lt p n v hlen]
  · obtain ⟨t, o, hexec, ho⟩ := execute_outcome (admissible_set 2 (admissible_set 1 h hn) hv)
    rw [runPair, poke_of_le n v (Nat.le_of_not_lt hlen)]
    cases o <;> simp [hexec, ho]

theorem core_fits_of_lt_bound {N : Int} {n : Nat} (hN : N ≤ 2 ^ Config.xlen) (hn : n < N.toNat) :
    Config.core.fits n = true := by
  have hlt : (n : Int) < 2 ^ Config.xlen := (Int.lt_toNat.mp hn).trans_le hN
  rw [core_fits, decide_eq_true_iff]
  exact_mod_cast hlt

/-- With both bounds at most `2^XLEN` every pair of the grid of an admissible image has a run. -/
theorem runPair_ne_noRun_of_mem_scanOrder {cfg : SearchConfig} {img : List Nat} {q : Nat × Nat}
    (h : admissible Config.core img = true) (hN : cfg.nounBound ≤ 2 ^ Config.xlen)
    (hV : cfg.verbBound ≤ 2 ^ Config.xlen) (hq : q ∈ scanOrder cfg.nounBound.toNat cfg.verbBound.toNat) :
    runPair Config.core img q.1 q.2 ≠ .noRun := by
  obtain ⟨hn, hv⟩ := mem_scanOrder.mp hq
  exact runPair_ne_noRun h (core_fits_of_lt_bound hN hn) (core_fits_of_lt_bound hV hv)

/-! ### How a scan ends (R158 to R160) -/

section
variable {p : Params} {cfg : SearchConfig} {img : List Nat} {q : Nat × Nat} {qs : List (Nat × Nat)}
  {o : SearchOutcome}

/-- The pair `q` ends the scan that reaches it with the outcome `o`. -/
def EndsScan (p : Params) (cfg : SearchConfig) (img : List Nat) (q : Nat × Nat) : SearchOutcome → Prop
  | .found report => report = 100 * q.1 + q.2 ∧ Matches p cfg img q
  | .notFound => False
  | .aborted c i => cfg.onRunFailure = .abortSearch ∧ runPair p img q.1 q.2 = .failed c i
  | .imageRefused => runPair p img q.1 q.2 = .noRun

theorem scan_of_endsScan (rest : List (Nat × Nat)) (h : EndsScan p cfg img q o) :
    scan p cfg img (q :: rest) = o := by
  cases o with
  | found report =>
    obtain ⟨rfl, hm⟩ := h
    exact scan_of_matches rest hm
  | notFound => exact h.elim
  | aborted c i =>
    obtain ⟨hp, hf⟩ := h
    exact scan_of_failed rest hp hf
  | imageRefused => exact scan_of_noRun rest h

theorem passedOver_or_endsScan (p : Params) (cfg : SearchConfig) (img : List Nat) (q : Nat × Nat) :
    PassedOver p cfg img q ∨ ∃ o, EndsScan p cfg img q o := by
  rcases pair_cases p cfg img q with hm | hpass | ⟨hp, c, i, hf⟩ | hno
  · exact .inr ⟨.found _, rfl, hm⟩
  · exact .inl hpass
  · exact .inr ⟨.aborted c i, hp, hf⟩
  · exact .inr ⟨.imageRefused, hno⟩

/-- Everything a scan can do: pass over every pair, or end at the first pair that it does not pass over. -/
theorem scan_cases (p : Params) (cfg : SearchConfig) (img : List Nat) (qs : List (Nat × Nat)) :
    (scan p cfg img qs = .notFound ∧ ∀ q ∈ qs, PassedOver p cfg img q) ∨
    ∃ before q after, qs = before ++ q :: after ∧ EndsScan p cfg img q (scan p cfg img qs) ∧
      ∀ b ∈ before, PassedOver p cfg img b := by
  induction qs with
  | nil => exact .inl ⟨rfl, by simp⟩
  | cons q qs ih =>
    rcases passedOver_or_endsScan p cfg img q with hpass | ⟨o, hend⟩
    · rw [scan_of_passedOver qs hpass]
      rcases ih with ⟨hnone, hall⟩ | ⟨before, q', after, rfl, hend, hbefore⟩
      · exact .inl ⟨hnone, List.forall_mem_cons.mpr ⟨hpass, hall⟩⟩
      · exact .inr ⟨q :: before, q', after, rfl, hend, List.forall_mem_cons.mpr ⟨hpass, hbefore⟩⟩
    · rw [scan_of_endsScan qs hend]
      exact .inr ⟨[], q, qs, rfl, hend, by simp⟩

theorem scan_eq_notFound_iff : scan p cfg img qs = .notFound ↔ ∀ q ∈ qs, PassedOver p cfg img q := by
  constructor
  · intro h
    rcases scan_cases p cfg img qs with ⟨-, hall⟩ | ⟨_, _, _, -, hend, -⟩
    · exact hall
    · rw [h] at hend
      exact hend.elim
  · intro h
    simpa [scan] using scan_append_of_passedOver [] h

/-- A scan has an outcome other than "not found" exactly when a pair after pairs passed over ends it so. -/
theorem scan_eq_iff_endsScan (ho : o ≠ .notFound) :
    scan p cfg img qs = o ↔ ∃ before n v after, qs = before ++ (n, v) :: after ∧
      EndsScan p cfg img (n, v) o ∧ ∀ q ∈ before, PassedOver p cfg img q := by
  constructor
  · rintro rfl
    rcases scan_cases p cfg img qs with ⟨hnone, -⟩ | ⟨before, ⟨n, v⟩, after, hend⟩
    · exact absurd hnone ho
    · exact ⟨before, n, v, after, hend⟩
  · rintro ⟨before, n, v, after, rfl, hend, hbefore⟩
    rw [scan_append_of_passedOver _ hbefore, scan_of_endsScan after hend]

/-- A scan in which a pair matches and only pairs that match or are passed over come before it finds. -/
theorem scan_finds {before : List (Nat × Nat)} {n v : Nat} (after : List (Nat × Nat))
    (hbefore : ∀ q ∈ before, Matches p cfg img q ∨ PassedOver p cfg img q) (hm : Matches p cfg img (n, v)) :
    ∃ report, scan p cfg img (before ++ (n, v) :: after) = .found report := by
  induction before with
  | nil => exact ⟨_, scan_of_matches after hm⟩
  | cons q qs ih =>
    obtain ⟨hq, hqs⟩ := List.forall_mem_cons.mp hbefore
    rcases hq with hmatch | hpass
    · exact ⟨_, scan_of_matches _ hmatch⟩
    · rw [List.cons_append, scan_of_passedOver _ hpass]
      exact ih hqs

theorem not_failed_of_passedOver (hp : cfg.onRunFailure = .abortSearch) (h : PassedOver p cfg img q) (c : Cause)
    (i : Nat) : runPair p img q.1 q.2 ≠ .failed c i := by
  rcases h with ⟨r, hr, -⟩ | ⟨hskip, -⟩
  · simp [hr]
  · simp [hp] at hskip

/-- A pair that has a run is passed over unless it matches or, under `abort_search`, fails. -/
theorem passedOver_iff_of_run (hrun : runPair p img q.1 q.2 ≠ .noRun) :
    PassedOver p cfg img q ↔ ¬ Matches p cfg img q ∧
      (cfg.onRunFailure = .abortSearch → ∀ c i, runPair p img q.1 q.2 ≠ .failed c i) := by
  refine ⟨fun h => ⟨not_matches_of_passedOver h, fun hp => not_failed_of_passedOver hp h⟩, ?_⟩
  rintro ⟨hmatch, hfail⟩
  rcases pair_cases p cfg img q with hm | hpass | ⟨hp, c, i, hf⟩ | hno
  · exact absurd hm hmatch
  · exact hpass
  · exact absurd hf (hfail hp c i)
  · exact absurd hno hrun

end

/-! ### The obligations of 70_reset_and_hazards.md -/

/-- Settles O7: both launches give the state of the image, whose cells are read back. -/
theorem launchSetsEveryElement : Obligations.LaunchSetsEveryElement := by
  unfold Obligations.LaunchSetsEveryElement
  intro img s hlen hfit
  have hadm : admissible Config.core img = true := (admissible_core_iff img).mpr ⟨hlen, hfit⟩
  refine ⟨State.ofImage img, launch_of_admissible hadm, relaunch_of_admissible hadm s, rfl, fun i hi => ?_,
    rfl, rfl, rfl, rfl, rfl⟩
  rw [ofImage_cell, List.getD_eq_getElem _ _ hi]

/-- Settles O44: nouns rise from row to row and verbs within a row. -/
theorem scanOrderIsRowMajor : Obligations.ScanOrderIsRowMajor := by
  unfold Obligations.ScanOrderIsRowMajor
  exact fun N V => ⟨fun _ _ => mem_scanOrder, scanOrder_pairwise N V⟩

/-- Settles O45: the poke of a long enough image is two list updates. -/
theorem pokeReplacesCellsOneAndTwo : Obligations.PokeReplacesCellsOneAndTwo := by
  unfold Obligations.PokeReplacesCellsOneAndTwo
  intro img n v hlen
  refine ⟨_, poke_of_le n v hlen, by simp, ?_, ?_, fun k h1 h2 => ?_⟩
  · rw [List.getElem?_set_ne (by decide), List.getElem?_set_self (by omega)]
  · rw [List.getElem?_set_self (by rw [List.length_set]; omega)]
  · rw [List.getElem?_set_ne (Ne.symm h2), List.getElem?_set_ne (Ne.symm h1)]

/-- Settles O47: a scan finds at the first pair it does not pass over, and only failures and refusals could stop it
before a match. -/
theorem searchFindsTheFirstMatch : Obligations.SearchFindsTheFirstMatch := by
  unfold Obligations.SearchFindsTheFirstMatch
  intro cfg img
  refine ⟨fun rep h => ?_, fun before n v after hsplit hm => ⟨fun hbefore => ?_, fun hadm hN hV hpolicy => ?_⟩⟩
  · obtain ⟨before, n, v, after, hsplit, ⟨hrep, hm⟩, hbefore⟩ := (scan_eq_iff_endsScan (by simp)).mp h
    exact ⟨before, n, v, after, hsplit, hrep, hm, fun q hq => not_matches_of_passedOver (hbefore q hq)⟩
  · exact (scan_eq_iff_endsScan (by simp)).mpr ⟨before, n, v, after, hsplit, ⟨rfl, hm⟩, hbefore⟩
  · have hreach : ∀ q ∈ before, Matches Config.core cfg img q ∨ PassedOver Config.core cfg img q := by
      intro q hq
      have hrun : runPair Config.core img q.1 q.2 ≠ .noRun :=
        runPair_ne_noRun_of_mem_scanOrder hadm hN hV (by rw [hsplit]; exact List.mem_append_left _ hq)
      refine or_iff_not_imp_left.mpr fun hmatch => (passedOver_iff_of_run hrun).mpr ⟨hmatch, fun habort => ?_⟩
      rcases hpolicy with hskip | hnofail
      · simp [habort] at hskip
      · exact hnofail q hq
    rw [search, hsplit]
    exact scan_finds after hreach hm

/-- Settles O48: each outcome names the pair that ended the scan, and on an admissible image no pair lacks a run. -/
theorem searchEndsByItsPolicy : Obligations.SearchEndsByItsPolicy := by
  unfold Obligations.SearchEndsByItsPolicy
  intro cfg img
  have hnotFound : search Config.core cfg img = .notFound ↔
      ∀ q ∈ scanOrder cfg.nounBound.toNat cfg.verbBound.toNat, PassedOver Config.core cfg img q :=
    scan_eq_notFound_iff
  refine ⟨hnotFound, fun c i => ⟨fun h => ?_, ?_⟩, scan_eq_iff_endsScan (by simp), fun hadm hN hV => ?_⟩
  · obtain ⟨before, n, v, after, hsplit, ⟨hp, hf⟩, hbefore⟩ := (scan_eq_iff_endsScan (by simp)).mp h
    exact ⟨hp, before, n, v, after, hsplit, hf, fun q hq => ⟨hbefore q hq, not_matches_of_passedOver (hbefore q hq),
      not_failed_of_passedOver hp (hbefore q hq)⟩⟩
  · rintro ⟨hp, before, n, v, after, hsplit, hf, hbefore⟩
    exact (scan_eq_iff_endsScan (by simp)).mpr ⟨before, n, v, after, hsplit, ⟨hp, hf⟩, fun q hq => (hbefore q hq).1⟩
  · have hrun := fun q => runPair_ne_noRun_of_mem_scanOrder (q := q) hadm hN hV
    refine ⟨fun h => ?_, fun hskip => ?_, fun habort => ?_⟩
    · obtain ⟨before, n, v, after, hsplit, hno, -⟩ := (scan_eq_iff_endsScan (by simp)).mp h
      exact hrun (n, v) (by simp [hsplit]) hno
    · rw [hnotFound]
      exact forall₂_congr fun q hq => by simp [passedOver_iff_of_run (hrun q hq), hskip]
    · rw [hnotFound]
      exact forall₂_congr fun q hq => by simp [passedOver_iff_of_run (hrun q hq), habort]

/-- Settles O8: a refused image is one that is not admissible, and the fetch from the empty image fails at PC 0. -/
theorem inadmissibleImageIsRefused : Obligations.InadmissibleImageIsRefused := by
  unfold Obligations.InadmissibleImageIsRefused
  refine ⟨fun img s => ?_, State.ofImage [], launch_of_admissible (by decide), ?_⟩
  · rw [launch_eq_refused_iff, admissible_core_eq_false_iff]
    exact ⟨Iff.rfl, fun h => relaunch_of_not_admissible ((admissible_core_eq_false_iff img).mpr h) s⟩
  · rw [← stepAt_core]
    exact stepAt_beyond Config.core rfl (Nat.le_refl 0)

/-- Settles O9, one read-out at a time. -/
theorem hostReadsOnlyTerminalStates : Obligations.HostReadsOnlyTerminalStates := by
  unfold Obligations.HostReadsOnlyTerminalStates
  refine fun s a => ⟨fun h => ?_, fun h => ?_, fun h => ?_⟩
  · exact ⟨by simp [State.outcome, h], hostCell_of_not_halted (by simp [h]) a, by simp [State.hostPc, h],
      by simp [State.hostLen, h]⟩
  · have hend : s.status ≠ .running := by simp [h]
    refine ⟨outcome_of_halted h, hostPc_of_terminal hend, hostLen_of_terminal hend, fun v => ?_⟩
    simp [hostCell_of_halted h, eq_comm]
  · have hend : s.status ≠ .running := by simp [h]
    exact ⟨outcome_of_failed h, hostPc_of_terminal hend, hostLen_of_terminal hend,
      hostCell_of_not_halted (by simp [h]) a⟩

/-- Settles O46: the poke's failure is the pair's. -/
theorem shortImagePokeFails : Obligations.ShortImagePokeFails := by
  unfold Obligations.ShortImagePokeFails
  exact fun img n v h => runPair_of_lt Config.core n v h

end Sys2Proof.Machine
